-- ==== Sys2Proof/Word.lean ====
section
/-! DEFINITION. The word type of the machine and its byte and register-index companions (R7, R10, R24). -/

namespace Sys2Proof

/-- A 16-bit pattern: a register, the pc, the psr, an instruction word, a memory word (R7, R10). -/
abbrev Word := BitVec 16

/-- One byte: half of a memory word as the model stores it (log 1), or one byte of an object file (R352). -/
abbrev Byte := BitVec 8

/-- A general register's 3-bit index (R24, R72). -/
abbrev RegIdx := BitVec 3

end Sys2Proof
end

