-- ==== Sys2Proof/Config.lean ====
section
/-! DEFINITION. The named parameters of R8 with the spec's defaults, and the free values the spec leaves
open (R116, R32). A free value is an opaque constant: nothing can be proved about its value. -/

namespace Sys2Proof

/-- What DIV and MOD write when the divisor is 0 (R116, D10): an arbitrary value, or 0. -/
inductive DivZero where
  | draw
  | lc4Zero
  deriving DecidableEq, Repr

/-- Which comparison CMPIU's final computation uses (R163, D8). -/
inductive CmpiuFinal where
  | unsigned
  | signed
  deriving DecidableEq, Repr

/-- The outcome of opcodes 0011, 1011 and 1110 (R265, D3). -/
inductive UnassignedPolicy where
  | refuse
  | fault
  | stall
  deriving DecidableEq, Repr

/-- The outcome of opcode 1101 with bit 8 = 0 (R247, D4). -/
inductive Hiconst0Policy where
  | stall
  | fault
  deriving DecidableEq, Repr

/-- The parameters of R8. -/
structure Config where
  haltPc           : Word
  divmodSigned     : Bool
  div0             : DivZero
  cmpiuFinal       : CmpiuFinal
  linkWritesNzp    : Bool
  unassignedPolicy : UnassignedPolicy
  hiconst0Policy   : Hiconst0Policy
  deriving DecidableEq, Repr

/-- The defaults of R8's table (logs 6 to 12: each is the spec's own decision). -/
def Config.standard : Config where
  haltPc           := 0x80FF
  divmodSigned     := false
  div0             := .draw
  cmpiuFinal       := .unsigned
  linkWritesNzp    := true
  unassignedPolicy := .refuse
  hiconst0Policy   := .stall

/-- The draw `div0Draw` of R116, one for each value of State's counter (log 7): free, UNVERIFIED. -/
opaque Config.div0Draw : Nat → Word

/-- The snapshot's first "selected operand-source index" (R32, D23, log 5): free. -/
opaque Config.rsIdxDraw : Nat → RegIdx

/-- The snapshot's second "selected operand-source index" (R32, D23, log 5): free. -/
opaque Config.rtIdxDraw : Nat → RegIdx

end Sys2Proof
end

