-- ==== Sys2Proof/Machine/State.lean ====
section
/-! DEFINITION. The state of the machine (R20 to R34), its reset values (R34, R350), and the reasons a step
can stop (R300 to R302, R90, R33, R352). -/

namespace Sys2Proof.Machine

/-- The 65536 words of R31 as byte cells: word `a` is the cells `2a` (bits 7:0) and `2a + 1` (bits 15:8).
DESIGN CHOICE (log 1): no instruction can tell the byte order (R50). Canonical form: Memory.wf in Ops.lean. -/
abbrev Memory := List Host.Cell

/-- The diagnostic snapshot of one step, the fields of R32. -/
structure Snapshot where
  regWE     : Bool
  rd        : RegIdx
  regValue  : Word
  nzpWE     : Bool
  nzpValue  : BitVec 3
  dmemWE    : Bool
  dmemAddr  : Word
  dmemValue : Word
  rsIdx     : RegIdx
  rtIdx     : RegIdx
  deriving DecidableEq, Repr

/-- Every field 0: the snapshot at reset (R34) and at the start of every step (R111). -/
def Snapshot.cleared : Snapshot where
  regWE     := false
  rd        := 0
  regValue  := 0
  nzpWE     := false
  nzpValue  := 0
  dmemWE    := false
  dmemAddr  := 0
  dmemValue := 0
  rsIdx     := 0
  rtIdx     := 0

/-- The address and the word of a retired instruction: with the snapshot, its trace record (R320). -/
structure Retired where
  pc   : Word
  word : Word
  deriving DecidableEq, Repr

/-- The machine state. -/
structure State where
  /-- Address of the next instruction to fetch (R20). -/
  pc      : Word
  /-- R0 to R7 (R24). -/
  regs    : Vector Word 8
  /-- Bit 15 privilege, bits 2:0 condition code N Z P, bits 14:3 zero (R27, R28). -/
  psr     : Word
  /-- The unified memory (R31). -/
  mem     : Memory
  /-- The snapshot of the step retired last (R32; log 3 on keeping it). -/
  snap    : Snapshot
  /-- The rest of that step's trace record (R320); none before the first retired step (R33). -/
  retired : Option Retired
  /-- The MODEL's own counter of retired steps, to which the free values are applied (R116, log 4). -/
  draws   : Nat
  deriving DecidableEq, Repr

/-- The state after reset (R34, R350). `retired` and `draws` are the model's (logs 3, 4). -/
def State.reset : State where
  pc      := 0x8200
  regs    := Vector.replicate 8 0
  psr     := 0x8000
  mem     := []
  snap    := Snapshot.cleared
  retired := none
  draws   := 0

/-- The three forbidden fetch conditions of R57, by the spec's numbers. -/
inductive FetchCond where
  | cond1
  | cond2
  | cond3
  deriving DecidableEq, Repr

/-- A fault is terminal and leaves the state as it was (R303). -/
inductive Fault where
  /-- Raised by the fetch check at the start of a step (R300). The spec's own fault, so safe. -/
  | fetchProtection (pc : Word) (cond : FetchCond)
  /-- Raised by LDR and STR in user mode at an address of 0x8000 or above (R301). The spec's own fault, so safe. -/
  | dataProtection (addr pc : Word)
  /-- Raised only under the non-default value `fault` of `unassigned_policy` or `hiconst0_policy` (R302). Safe:
  the machine stops. -/
  | illegalInstruction (pc word : Word)
  deriving DecidableEq, Repr

/-- The model gives the request no meaning. -/
inductive Refusal where
  /-- An instruction not modelled yet, raised in exec's arms only (none is left). Safe. -/
  | notModelled (mnemonic : String)
  /-- Raised by the opcodes 0011, 1011 and 1110 under the default policy (R90, R265). Safe. -/
  | unassignedOpcode (word : Word)
  /-- Raised by reading the snapshot before the first retired step (R33, D25). No step raises it. Safe. -/
  | snapshotBeforeFirstStep
  /-- Raised by the host's load of a segment running past 0xFFFF (R352, D24). No step raises it. Safe. -/
  | loadPastEnd (addr : Nat)
  deriving DecidableEq, Repr

end Sys2Proof.Machine
end

