-- ==== Sys2Proof/Machine/Alu.lean ====
section
/-! DEFINITION. The ALU operations that are not one bit-vector operator: divide, modulo (R115, R116) and the
shifts (R11, R118). -/

namespace Sys2Proof.Machine

/-- What DIV and MOD write when the divisor is 0 (R116, log 7): the draw, or 0 under `lc4_zero`. -/
def divZeroValue (c : Config) (draw : Word) : Word :=
  match c.div0 with
  | .draw    => draw
  | .lc4Zero => 0

/-- DIV (R115, R143): unsigned by default; C's rule, rounded toward zero, under `divmod_signed` (log 6). -/
def divide (c : Config) (draw a b : Word) : Word :=
  if b = 0 then divZeroValue c draw
  else if c.divmodSigned then BitVec.ofInt 16 (Int.tdiv a.toInt b.toInt)
  else BitVec.ofNat 16 (a.toNat / b.toNat)

/-- MOD (R115, R223): `u(a) mod u(b)`, or the remainder with the dividend's sign under `divmod_signed`. -/
def modulo (c : Config) (draw a b : Word) : Word :=
  if b = 0 then divZeroValue c draw
  else if c.divmodSigned then BitVec.ofInt 16 (a.toInt - Int.tdiv a.toInt b.toInt * b.toInt)
  else BitVec.ofNat 16 (a.toNat % b.toNat)

/-- `v << k` (R11, R220). -/
def shiftLeft (v : Word) (k : BitVec 4) : Word := v <<< k.toNat

/-- `v >>s k` (R11, R221): copies of bit 15 enter at the top. -/
def shiftRightArith (v : Word) (k : BitVec 4) : Word := v.sshiftRight k.toNat

/-- `v >>u k` (R11, R222). -/
def shiftRightLogical (v : Word) (k : BitVec 4) : Word := v >>> k.toNat

end Sys2Proof.Machine
end

