-- ==== Sys2Proof/Syntax.lean ====
section
/-! DEFINITION. The instructions: one constructor per row of spec/opcode_table.json (R71, R88).

Operands are what R88's decode function delivers. The signed immediates IMM5, IMM6, IMM9 and JMP's IMM11
are the 16-bit pattern assembled by sign extension (R85). IMM7, UIMM7, JSR's IMM11, UIMM4 and UIMM8 are
the raw field. NOP and the stall carry the field they do not use, and the unassigned opcodes carry the
rest of their word, because their refusal names it (R90). -/

namespace Sys2Proof

/-- The families of R71's table, one for each value of `I[15:12]`; `unassigned` for the three values of none (R90). -/
inductive Family where
  | branch
  | arithmetic
  | compare
  | call
  | logical
  | load
  | store
  | returnFromTrap
  | constLow
  | shiftModulo
  | jump
  | constHigh
  | trap
  | unassigned
  deriving DecidableEq, Repr

inductive Instr where
  -- Branch, opcode 0000 (R73, R130 to R132)
  | nop   (off : Word)
  | brp   (off : Word)
  | brz   (off : Word)
  | brzp  (off : Word)
  | brn   (off : Word)
  | brnp  (off : Word)
  | brnz  (off : Word)
  | brnzp (off : Word)
  -- Arithmetic, opcode 0001 (R74, R75, R140 to R144)
  | add  (rd rs rt : RegIdx)
  | mul  (rd rs rt : RegIdx)
  | sub  (rd rs rt : RegIdx)
  | div  (rd rs rt : RegIdx)
  | addi (rd rs : RegIdx) (imm : Word)
  -- Compare, opcode 0010 (R76, R160 to R163)
  | cmp   (rs rt : RegIdx)
  | cmpu  (rs rt : RegIdx)
  | cmpi  (rs : RegIdx) (imm : BitVec 7)
  | cmpiu (rs : RegIdx) (uimm : BitVec 7)
  -- Subroutine call, opcode 0100 (R77, R78, R204, R206)
  | jsrr (rs : RegIdx)
  | jsr  (imm : BitVec 11)
  -- Logical, opcode 0101 (R74, R75, R180 to R184)
  | and  (rd rs rt : RegIdx)
  | not  (rd rs : RegIdx)
  | or   (rd rs rt : RegIdx)
  | xor  (rd rs rt : RegIdx)
  | andi (rd rs : RegIdx) (imm : Word)
  -- Load 0110, store 0111 (R79, R241, R242)
  | ldr (rd rs : RegIdx) (off : Word)
  | str (rt rs : RegIdx) (off : Word)
  -- Return from interrupt 1000 (R80, R262), load-immediate low 1001 (R81, R243)
  | rti
  | const (rd : RegIdx) (imm : Word)
  -- Shift and modulo, opcode 1010 (R82, R220 to R223)
  | sll (rd rs : RegIdx) (amount : BitVec 4)
  | sra (rd rs : RegIdx) (amount : BitVec 4)
  | srl (rd rs : RegIdx) (amount : BitVec 4)
  | mod (rd rs rt : RegIdx)
  -- Jump, opcode 1100 (R77, R78, R200, R202)
  | jmpr (rs : RegIdx)
  | jmp  (off : Word)
  -- Load-immediate high, opcode 1101 (R83, R89, R244, R247)
  | hiconst      (rd : RegIdx) (uimm : BitVec 8)
  | hiconstStall (rd : RegIdx) (low : BitVec 8)
  -- Trap 1111 (R84, R260)
  | trap (vec : BitVec 8)
  -- Opcodes of no family (R90, R265)
  | unassigned0011 (low : BitVec 12)
  | unassigned1011 (low : BitVec 12)
  | unassigned1110 (low : BitVec 12)
  deriving DecidableEq, Repr

end Sys2Proof
end

