-- ==== Sys2Proof/WellFormed.lean ====
section
/-! DEFINITION. Which instructions have an encoding: every signed immediate lies in its field's range,
the table of R85. Every other operand is as wide as its field by its type. -/

namespace Sys2Proof

/-- `-2^(n-1) <= s(v) <= 2^(n-1) - 1`: the value range of an n-bit signed field (R85). -/
def fitsSigned (n : Nat) (v : Word) : Bool :=
  decide (-(2 ^ (n - 1) : Int) ≤ v.toInt ∧ v.toInt < (2 ^ (n - 1) : Int))

/-- The ranges of R85's immediate table. -/
def Instr.wellFormed : Instr → Bool
  | .nop off => fitsSigned 9 off
  | .brp off => fitsSigned 9 off
  | .brz off => fitsSigned 9 off
  | .brzp off => fitsSigned 9 off
  | .brn off => fitsSigned 9 off
  | .brnp off => fitsSigned 9 off
  | .brnz off => fitsSigned 9 off
  | .brnzp off => fitsSigned 9 off
  | .add _ _ _ => true
  | .mul _ _ _ => true
  | .sub _ _ _ => true
  | .div _ _ _ => true
  | .addi _ _ imm => fitsSigned 5 imm
  | .cmp _ _ => true
  | .cmpu _ _ => true
  | .cmpi _ _ => true
  | .cmpiu _ _ => true
  | .jsrr _ => true
  | .jsr _ => true
  | .and _ _ _ => true
  | .not _ _ => true
  | .or _ _ _ => true
  | .xor _ _ _ => true
  | .andi _ _ imm => fitsSigned 5 imm
  | .ldr _ _ off => fitsSigned 6 off
  | .str _ _ off => fitsSigned 6 off
  | .rti => true
  | .const _ imm => fitsSigned 9 imm
  | .sll _ _ _ => true
  | .sra _ _ _ => true
  | .srl _ _ _ => true
  | .mod _ _ _ => true
  | .jmpr _ => true
  | .jmp off => fitsSigned 11 off
  | .hiconst _ _ => true
  | .hiconstStall _ _ => true
  | .trap _ => true
  | .unassigned0011 _ => true
  | .unassigned1011 _ => true
  | .unassigned1110 _ => true

end Sys2Proof
end

