-- ==== Sys2Proof/Decode.lean ====
section
/-! DEFINITION. The decoder of R88, total on all 65536 words, the encoder written from the same formats
(R73 to R84), and the opcode table as data. Field positions are the spec's own choice (D1, log 13), and
bits marked x are ignored (R87, log 14). No word is rejected here: the words of no family decode to
their own constructors, which exec refuses by name (R90, R305). -/

namespace Sys2Proof

/-- `sext_n` of R10: the n-bit pattern widened to 16 bits by copying its top bit. -/
def sext {n : Nat} (v : BitVec n) : Word := v.signExtend 16

/-- `zext_n` of R10: the n-bit pattern widened to 16 bits with zeros. -/
def zext {n : Nat} (v : BitVec n) : Word := v.setWidth 16

/-- The field of `n` bits of `I` whose lowest bit is `lo` (R9). -/
def field (I : Word) (lo n : Nat) : BitVec n := I.extractLsb' lo n

/-- `I[15:12]`, the primary opcode (R71). -/
def fieldOp (I : Word) : BitVec 4 := field I 12 4

/-- `d = I[11:9]` (R72). STR's data register and the compares' first operand stand here too. -/
def fieldD (I : Word) : RegIdx := field I 9 3

/-- `s = I[8:6]` (R72). -/
def fieldS (I : Word) : RegIdx := field I 6 3

/-- `t = I[2:0]` (R72). -/
def fieldT (I : Word) : RegIdx := field I 0 3

/-- Opcode 0000: `I[11:9]` is the mask n z p (R73, R132). -/
def decodeBranch (I : Word) : Instr :=
  match field I 9 3 with
  | 0b000#3 => .nop (sext (field I 0 9))
  | 0b001#3 => .brp (sext (field I 0 9))
  | 0b010#3 => .brz (sext (field I 0 9))
  | 0b011#3 => .brzp (sext (field I 0 9))
  | 0b100#3 => .brn (sext (field I 0 9))
  | 0b101#3 => .brnp (sext (field I 0 9))
  | 0b110#3 => .brnz (sext (field I 0 9))
  | _ => .brnzp (sext (field I 0 9))          -- 111

/-- Opcode 0001 (R74, R75). -/
def decodeArithmetic (I : Word) : Instr :=
  if field I 5 1 = 1 then .addi (fieldD I) (fieldS I) (sext (field I 0 5))
  else match field I 3 2 with
    | 0b00#2 => .add (fieldD I) (fieldS I) (fieldT I)
    | 0b01#2 => .mul (fieldD I) (fieldS I) (fieldT I)
    | 0b10#2 => .sub (fieldD I) (fieldS I) (fieldT I)
    | _ => .div (fieldD I) (fieldS I) (fieldT I)   -- 11

/-- Opcode 0010 (R76). -/
def decodeCompare (I : Word) : Instr :=
  match field I 7 2 with
  | 0b00#2 => .cmp (fieldD I) (fieldT I)
  | 0b01#2 => .cmpu (fieldD I) (fieldT I)
  | 0b10#2 => .cmpi (fieldD I) (field I 0 7)
  | _ => .cmpiu (fieldD I) (field I 0 7)           -- 11

/-- Opcode 0100 (R77, R78). -/
def decodeCall (I : Word) : Instr :=
  if field I 11 1 = 1 then .jsr (field I 0 11) else .jsrr (fieldS I)

/-- Opcode 0101 (R74, R75). -/
def decodeLogical (I : Word) : Instr :=
  if field I 5 1 = 1 then .andi (fieldD I) (fieldS I) (sext (field I 0 5))
  else match field I 3 2 with
    | 0b00#2 => .and (fieldD I) (fieldS I) (fieldT I)
    | 0b01#2 => .not (fieldD I) (fieldS I)
    | 0b10#2 => .or (fieldD I) (fieldS I) (fieldT I)
    | _ => .xor (fieldD I) (fieldS I) (fieldT I)   -- 11

/-- Opcode 1010 (R82). -/
def decodeShift (I : Word) : Instr :=
  match field I 4 2 with
  | 0b00#2 => .sll (fieldD I) (fieldS I) (field I 0 4)
  | 0b01#2 => .sra (fieldD I) (fieldS I) (field I 0 4)
  | 0b10#2 => .srl (fieldD I) (fieldS I) (field I 0 4)
  | _ => .mod (fieldD I) (fieldS I) (fieldT I)     -- 11

/-- Opcode 1100 (R77, R78). -/
def decodeJump (I : Word) : Instr :=
  if field I 11 1 = 1 then .jmp (sext (field I 0 11)) else .jmpr (fieldS I)

/-- Opcode 1101: bit 8 tells HICONST from the stall (R83, R89, C1). -/
def decodeHiconst (I : Word) : Instr :=
  if field I 8 1 = 1 then .hiconst (fieldD I) (field I 0 8)
  else .hiconstStall (fieldD I) (field I 0 8)

/-- R88's decode function: the family by `I[15:12]` (R71), then the family's own fields. -/
def decode (I : Word) : Instr :=
  match fieldOp I with
  | 0b0000#4 => decodeBranch I
  | 0b0001#4 => decodeArithmetic I
  | 0b0010#4 => decodeCompare I
  | 0b0011#4 => .unassigned0011 (field I 0 12)
  | 0b0100#4 => decodeCall I
  | 0b0101#4 => decodeLogical I
  | 0b0110#4 => .ldr (fieldD I) (fieldS I) (sext (field I 0 6))
  | 0b0111#4 => .str (fieldD I) (fieldS I) (sext (field I 0 6))
  | 0b1000#4 => .rti
  | 0b1001#4 => .const (fieldD I) (sext (field I 0 9))
  | 0b1010#4 => decodeShift I
  | 0b1011#4 => .unassigned1011 (field I 0 12)
  | 0b1100#4 => decodeJump I
  | 0b1101#4 => decodeHiconst I
  | 0b1110#4 => .unassigned1110 (field I 0 12)
  | _ => .trap (field I 0 8)                       -- 1111

/-! ## The encoder -/

/-- Format BR (R73). -/
def encodeBr (mask : BitVec 3) (off : Word) : Word := 0b0000#4 ++ mask ++ field off 0 9

/-- Format RRR (R74). -/
def encodeRRR (op : BitVec 4) (d s : RegIdx) (sub : BitVec 3) (t : RegIdx) : Word := op ++ d ++ s ++ sub ++ t

/-- Format RRI5 (R75). -/
def encodeRRI5 (op : BitVec 4) (d s : RegIdx) (imm : Word) : Word := op ++ d ++ s ++ 1#1 ++ field imm 0 5

/-- Format MEM (R79). -/
def encodeMem (op : BitVec 4) (r s : RegIdx) (off : Word) : Word := op ++ r ++ s ++ field off 0 6

/-- Format SHIFT with an amount (R82). -/
def encodeShift (kk : BitVec 2) (d s : RegIdx) (amount : BitVec 4) : Word := 0b1010#4 ++ d ++ s ++ kk ++ amount

/-- The word of an instruction, its x bits zero (R73 to R84, R87). -/
def encode : Instr → Word
  | .nop off => encodeBr 0b000 off
  | .brp off => encodeBr 0b001 off
  | .brz off => encodeBr 0b010 off
  | .brzp off => encodeBr 0b011 off
  | .brn off => encodeBr 0b100 off
  | .brnp off => encodeBr 0b101 off
  | .brnz off => encodeBr 0b110 off
  | .brnzp off => encodeBr 0b111 off
  | .add d s t => encodeRRR 0b0001 d s 0b000 t
  | .mul d s t => encodeRRR 0b0001 d s 0b001 t
  | .sub d s t => encodeRRR 0b0001 d s 0b010 t
  | .div d s t => encodeRRR 0b0001 d s 0b011 t
  | .addi d s imm => encodeRRI5 0b0001 d s imm
  | .cmp s t => 0b0010#4 ++ s ++ 0b00#2 ++ 0b0000#4 ++ t
  | .cmpu s t => 0b0010#4 ++ s ++ 0b01#2 ++ 0b0000#4 ++ t
  | .cmpi s imm => 0b0010#4 ++ s ++ 0b10#2 ++ imm
  | .cmpiu s uimm => 0b0010#4 ++ s ++ 0b11#2 ++ uimm
  | .jsrr s => 0b0100#4 ++ 0b0#1 ++ 0b00#2 ++ s ++ 0b000000#6
  | .jsr imm => 0b0100#4 ++ 0b1#1 ++ imm
  | .and d s t => encodeRRR 0b0101 d s 0b000 t
  | .not d s => encodeRRR 0b0101 d s 0b001 0b000
  | .or d s t => encodeRRR 0b0101 d s 0b010 t
  | .xor d s t => encodeRRR 0b0101 d s 0b011 t
  | .andi d s imm => encodeRRI5 0b0101 d s imm
  | .ldr d s off => encodeMem 0b0110 d s off
  | .str t s off => encodeMem 0b0111 t s off
  | .rti => 0b1000#4 ++ 0#12
  | .const d imm => 0b1001#4 ++ d ++ field imm 0 9
  | .sll d s k => encodeShift 0b00 d s k
  | .sra d s k => encodeShift 0b01 d s k
  | .srl d s k => encodeShift 0b10 d s k
  | .mod d s t => 0b1010#4 ++ d ++ s ++ 0b11#2 ++ 0b0#1 ++ t
  | .jmpr s => 0b1100#4 ++ 0b0#1 ++ 0b00#2 ++ s ++ 0b000000#6
  | .jmp off => 0b1100#4 ++ 0b1#1 ++ field off 0 11
  | .hiconst d uimm => 0b1101#4 ++ d ++ 0b1#1 ++ uimm
  | .hiconstStall d low => 0b1101#4 ++ d ++ 0b0#1 ++ low
  | .trap vec => 0b1111#4 ++ 0b0000#4 ++ vec
  | .unassigned0011 low => 0b0011#4 ++ low
  | .unassigned1011 low => 0b1011#4 ++ low
  | .unassigned1110 low => 0b1110#4 ++ low

/-! ## The opcode table as data (spec/opcode_table.json) -/

/-- One row: the bits the row fixes are those of `mask`, their values those of `pattern`. -/
structure OpcodeRow where
  mnemonic : String
  pattern  : Word
  mask     : Word
  deriving DecidableEq, Repr

/-- A word belongs to a row when it has the row's fixed bits (R71). -/
def OpcodeRow.holds (r : OpcodeRow) (w : Word) : Bool := w &&& r.mask == r.pattern

def branchRows : List OpcodeRow :=
  [⟨"NOP", 0x0000, 0xFE00⟩, ⟨"BRp", 0x0200, 0xFE00⟩, ⟨"BRz", 0x0400, 0xFE00⟩, ⟨"BRzp", 0x0600, 0xFE00⟩,
   ⟨"BRn", 0x0800, 0xFE00⟩, ⟨"BRnp", 0x0A00, 0xFE00⟩, ⟨"BRnz", 0x0C00, 0xFE00⟩, ⟨"BRnzp", 0x0E00, 0xFE00⟩]

def arithmeticRows : List OpcodeRow :=
  [⟨"ADD", 0x1000, 0xF038⟩, ⟨"MUL", 0x1008, 0xF038⟩, ⟨"SUB", 0x1010, 0xF038⟩, ⟨"DIV", 0x1018, 0xF038⟩,
   ⟨"ADDI", 0x1020, 0xF020⟩]

def compareRows : List OpcodeRow :=
  [⟨"CMP", 0x2000, 0xF180⟩, ⟨"CMPU", 0x2080, 0xF180⟩, ⟨"CMPI", 0x2100, 0xF180⟩, ⟨"CMPIU", 0x2180, 0xF180⟩]

def logicalRows : List OpcodeRow :=
  [⟨"AND", 0x5000, 0xF038⟩, ⟨"OR", 0x5010, 0xF038⟩, ⟨"XOR", 0x5018, 0xF038⟩, ⟨"NOT", 0x5008, 0xF038⟩,
   ⟨"ANDI", 0x5020, 0xF020⟩]

def shiftRows : List OpcodeRow :=
  [⟨"SLL", 0xA000, 0xF030⟩, ⟨"SRA", 0xA010, 0xF030⟩, ⟨"SRL", 0xA020, 0xF030⟩, ⟨"MOD", 0xA030, 0xF030⟩]

def jumpRows : List OpcodeRow :=
  [⟨"JSRR", 0x4000, 0xF800⟩, ⟨"JSR", 0x4800, 0xF800⟩, ⟨"JMPR", 0xC000, 0xF800⟩, ⟨"JMP", 0xC800, 0xF800⟩]

def memoryRows : List OpcodeRow :=
  [⟨"LDR", 0x6000, 0xF000⟩, ⟨"STR", 0x7000, 0xF000⟩, ⟨"CONST", 0x9000, 0xF000⟩, ⟨"HICONST", 0xD100, 0xF100⟩,
   ⟨"HICONST_STALL", 0xD000, 0xF100⟩]

def systemRows : List OpcodeRow :=
  [⟨"RTI", 0x8000, 0xF000⟩, ⟨"TRAP", 0xF000, 0xF000⟩, ⟨"UNASSIGNED_0011", 0x3000, 0xF000⟩,
   ⟨"UNASSIGNED_1011", 0xB000, 0xF000⟩, ⟨"UNASSIGNED_1110", 0xE000, 0xF000⟩]

/-- The 40 rows (R71). -/
def opcodeTable : List OpcodeRow :=
  branchRows ++ arithmeticRows ++ compareRows ++ logicalRows ++ shiftRows ++ jumpRows ++ memoryRows ++ systemRows

/-- The mnemonic an instruction has in the table (R71). -/
def Instr.mnemonic : Instr → String
  | .nop _ => "NOP"
  | .brp _ => "BRp"
  | .brz _ => "BRz"
  | .brzp _ => "BRzp"
  | .brn _ => "BRn"
  | .brnp _ => "BRnp"
  | .brnz _ => "BRnz"
  | .brnzp _ => "BRnzp"
  | .add _ _ _ => "ADD"
  | .mul _ _ _ => "MUL"
  | .sub _ _ _ => "SUB"
  | .div _ _ _ => "DIV"
  | .addi _ _ _ => "ADDI"
  | .cmp _ _ => "CMP"
  | .cmpu _ _ => "CMPU"
  | .cmpi _ _ => "CMPI"
  | .cmpiu _ _ => "CMPIU"
  | .jsrr _ => "JSRR"
  | .jsr _ => "JSR"
  | .and _ _ _ => "AND"
  | .not _ _ => "NOT"
  | .or _ _ _ => "OR"
  | .xor _ _ _ => "XOR"
  | .andi _ _ _ => "ANDI"
  | .ldr _ _ _ => "LDR"
  | .str _ _ _ => "STR"
  | .rti => "RTI"
  | .const _ _ => "CONST"
  | .sll _ _ _ => "SLL"
  | .sra _ _ _ => "SRA"
  | .srl _ _ _ => "SRL"
  | .mod _ _ _ => "MOD"
  | .jmpr _ => "JMPR"
  | .jmp _ => "JMP"
  | .hiconst _ _ => "HICONST"
  | .hiconstStall _ _ => "HICONST_STALL"
  | .trap _ => "TRAP"
  | .unassigned0011 _ => "UNASSIGNED_0011"
  | .unassigned1011 _ => "UNASSIGNED_1011"
  | .unassigned1110 _ => "UNASSIGNED_1110"

/-- The family an instruction belongs to (R71). -/
def Instr.family : Instr → Family
  | .nop _ => .branch
  | .brp _ => .branch
  | .brz _ => .branch
  | .brzp _ => .branch
  | .brn _ => .branch
  | .brnp _ => .branch
  | .brnz _ => .branch
  | .brnzp _ => .branch
  | .add _ _ _ => .arithmetic
  | .mul _ _ _ => .arithmetic
  | .sub _ _ _ => .arithmetic
  | .div _ _ _ => .arithmetic
  | .addi _ _ _ => .arithmetic
  | .cmp _ _ => .compare
  | .cmpu _ _ => .compare
  | .cmpi _ _ => .compare
  | .cmpiu _ _ => .compare
  | .jsrr _ => .call
  | .jsr _ => .call
  | .and _ _ _ => .logical
  | .not _ _ => .logical
  | .or _ _ _ => .logical
  | .xor _ _ _ => .logical
  | .andi _ _ _ => .logical
  | .ldr _ _ _ => .load
  | .str _ _ _ => .store
  | .rti => .returnFromTrap
  | .const _ _ => .constLow
  | .sll _ _ _ => .shiftModulo
  | .sra _ _ _ => .shiftModulo
  | .srl _ _ _ => .shiftModulo
  | .mod _ _ _ => .shiftModulo
  | .jmpr _ => .jump
  | .jmp _ => .jump
  | .hiconst _ _ => .constHigh
  | .hiconstStall _ _ => .constHigh
  | .trap _ => .trap
  | .unassigned0011 _ => .unassigned
  | .unassigned1011 _ => .unassigned
  | .unassigned1110 _ => .unassigned

/-- The bits of an instruction's word that are not marked x in R73 to R84. -/
def Instr.usedBits : Instr → Word
  | .nop _ => 0xFFFF
  | .brp _ => 0xFFFF
  | .brz _ => 0xFFFF
  | .brzp _ => 0xFFFF
  | .brn _ => 0xFFFF
  | .brnp _ => 0xFFFF
  | .brnz _ => 0xFFFF
  | .brnzp _ => 0xFFFF
  | .add _ _ _ => 0xFFFF
  | .mul _ _ _ => 0xFFFF
  | .sub _ _ _ => 0xFFFF
  | .div _ _ _ => 0xFFFF
  | .addi _ _ _ => 0xFFFF
  | .cmp _ _ => 0xFF87
  | .cmpu _ _ => 0xFF87
  | .cmpi _ _ => 0xFFFF
  | .cmpiu _ _ => 0xFFFF
  | .jsrr _ => 0xF9C0
  | .jsr _ => 0xFFFF
  | .and _ _ _ => 0xFFFF
  | .not _ _ => 0xFFF8
  | .or _ _ _ => 0xFFFF
  | .xor _ _ _ => 0xFFFF
  | .andi _ _ _ => 0xFFFF
  | .ldr _ _ _ => 0xFFFF
  | .str _ _ _ => 0xFFFF
  | .rti => 0xF000
  | .const _ _ => 0xFFFF
  | .sll _ _ _ => 0xFFFF
  | .sra _ _ _ => 0xFFFF
  | .srl _ _ _ => 0xFFFF
  | .mod _ _ _ => 0xFFF7
  | .jmpr _ => 0xF9C0
  | .jmp _ => 0xFFFF
  | .hiconst _ _ => 0xFFFF
  | .hiconstStall _ _ => 0xFFFF
  | .trap _ => 0xF0FF
  | .unassigned0011 _ => 0xFFFF
  | .unassigned1011 _ => 0xFFFF
  | .unassigned1110 _ => 0xFFFF

/-! ## The host's numbering of table words -/

/-- The instruction word a table row's bits stand for: `nbits` bits of `w`, every bit above them 0. -/
def tableWord (nbits w : Nat) : Word := BitVec.ofNat 16 (w % 2 ^ nbits)

/-- The decoder on a table word. Every instruction is one 16-bit word (R70), so a longer one is no instruction. -/
def decodeTableWord (nbits w : Nat) : Option Instr :=
  if nbits ≤ 16 then some (decode (tableWord nbits w)) else none

end Sys2Proof
end

