-- ==== Sys2Proof/Machine/Flags.lean ====
section
/-! DEFINITION. The psr's fields (R27), the condition code of a result (R106), and the comparisons (R117). -/

namespace Sys2Proof.Machine

/-- `nzpOf` of R106: 001 positive, 010 zero, 100 negative. -/
def nzpOf (z : Int) : BitVec 3 :=
  if 0 < z then 0b001 else if z = 0 then 0b010 else 0b100

/-- The condition code, `psr[2:0]` (R12, R27). -/
def nzp (psr : Word) : BitVec 3 := field psr 0 3

/-- The psr with its condition code replaced as a unit (R30); bits 15:3 unchanged (R106). -/
def withNzp (psr : Word) (c : BitVec 3) : Word := field psr 3 13 ++ c

/-- Bits 14:3 of the psr, which the spec does not describe (R28). -/
def psrReserved (psr : Word) : BitVec 12 := field psr 3 12

/-- The privilege bit, `psr[15]` (R27): 0 user, 1 supervisor. -/
def privBit (psr : Word) : BitVec 1 := field psr 15 1

/-- The psr with its privilege bit replaced. -/
def withPriv (psr : Word) (b : BitVec 1) : Word := b ++ field psr 0 15

/-- The privilege test as the spec writes it, `u(psr) < 0x8000` (R29, R57). -/
def userMode (psr : Word) : Bool := decide (psr.toNat < 0x8000)

/-- `(I[11:9] & psr[2:0]) ≠ 0` (R131): the mask's bits test N, Z, P in that order from the top. -/
def branchTaken (mask : BitVec 3) (psr : Word) : Bool := mask &&& nzp psr != 0

/-- `s(a) - s(b)`, exact (R117, R160). -/
def diffSigned (a b : Word) : Int := a.toInt - b.toInt

/-- `u(a) - u(b)`, exact (R117, R161). -/
def diffUnsigned (a b : Word) : Int := (a.toNat : Int) - (b.toNat : Int)

/-- CMPIU's final computation, the only observable one (R163): log 8. -/
def diffFinal (which : CmpiuFinal) (a : Word) (uimm : BitVec 7) : Int :=
  match which with
  | .unsigned => diffUnsigned a (zext uimm)
  | .signed   => a.toInt - (zext uimm).toNat

end Sys2Proof.Machine
end

