-- ==== Sys2Proof/Machine/Operands.lean ====
section
/-! DEFINITION. Operand forms (R86): register reads, and the addresses and targets instructions compute. -/

namespace Sys2Proof.Machine

/-- `x[i]` (R12, R24): the one read of a general register. No register is hardwired. -/
def State.reg (s : State) (i : RegIdx) : Word := s.regs[i.toNat]'(by have := i.isLt; omega)

/-- `trunc16(pc + 1)`: the next instruction, and the link (R21, R204). -/
def State.pcNext (s : State) : Word := s.pc + 1

/-- The effective address of LDR and STR: base plus offset, wrapped to 16 bits (R240; D14, log 19). -/
def effectiveAddress (base off : Word) : Word := base + off

/-- The target of BR and JMP: the address after the instruction plus the offset (R131, R202; D5, log 15). -/
def relativeTarget (s : State) (off : Word) : Word := s.pcNext + off

/-- JSR's target: bit 15 of the pc, then the raw immediate shifted left by 4 (R206; D12, log 18). -/
def callTarget (pc : Word) (imm : BitVec 11) : Word := (pc &&& 0x8000#16) ||| (zext imm <<< 4)

/-- TRAP's target, `0x8000 | UIMM8`; no vector is read from memory (R56, R260; D13, log 18). -/
def trapTarget (vec : BitVec 8) : Word := 0x8000#16 ||| zext vec

/-- HICONST's value: the low byte kept, the high byte replaced (R244). -/
def withHighByte (old : Word) (uimm : BitVec 8) : Word := (old &&& 0x00FF#16) ||| (zext uimm <<< 8)

end Sys2Proof.Machine
end

