-- ==== Sys2Proof/Machine/Ops.lean ====
section
/-! DEFINITION. The named operations every instruction is written with: memory, protection checks, register,
flag, pc and snapshot writes, calls, taking the trap and returning from it. -/

namespace Sys2Proof.Machine

/-- The parameters that exec, step and drive have: the spec's defaults (R8, logs 6 to 12). execWith, stepWith and
driveWith take any. -/
def config : Config := Config.standard

/-- The answer of an instruction or a step. -/
abbrev Answer := Host.Outcome State Fault Refusal

/-! ## Memory -/

/-- What an unlisted cell reads as: reset zeroes the whole memory (R34, R61, R350). -/
def Memory.unlisted : Byte := 0

/-- The number of byte cells: two for each of the 65536 words (R31). -/
def Memory.size : Nat := 131072

/-- Keys from `lo` on, strictly rising, inside the address space, no entry equal to an unlisted one. -/
def Memory.wfFrom (lo : Nat) : Memory → Bool
  | [] => true
  | (k, v) :: m => decide (lo ≤ k) && decide (k < Memory.size) && decide (v ≠ Memory.unlisted) && Memory.wfFrom (k + 1) m

/-- The canonical form of a memory: equal memories are equal lists. -/
def Memory.wf (m : Memory) : Bool := Memory.wfFrom 0 m

/-- The byte in one cell. -/
def Memory.readByte : Memory → Nat → Byte
  | [], _ => Memory.unlisted
  | (k, v) :: m, a => if a = k then v else Memory.readByte m a

/-- The memory without a cell. -/
def Memory.erase (a : Nat) : Memory → Memory
  | [] => []
  | (k, v) :: m => if k = a then Memory.erase a m else (k, v) :: Memory.erase a m

/-- The memory with a cell put before the first larger key. -/
def Memory.insert (a : Nat) (b : Byte) : Memory → Memory
  | [] => [(a, b)]
  | (k, v) :: m => if a < k then (a, b) :: (k, v) :: m else (k, v) :: Memory.insert a b m

/-- One cell written. The canonical form is kept: a value that an unlisted cell reads as is not listed. -/
def Memory.writeByte (m : Memory) (a : Nat) (b : Byte) : Memory :=
  if b = Memory.unlisted then Memory.erase a m else Memory.insert a b (Memory.erase a m)

/-- The cell of a word's low byte. -/
def Memory.lowCell (a : Word) : Nat := 2 * a.toNat

/-- The cell of a word's high byte. -/
def Memory.highCell (a : Word) : Nat := 2 * a.toNat + 1

/-- `MemRead(a, 1)` (R12, R53). -/
def Memory.readWord (m : Memory) (a : Word) : Word :=
  m.readByte (Memory.highCell a) ++ m.readByte (Memory.lowCell a)

/-- `MemWrite(a, 1, v)` (R12, R53). -/
def Memory.writeWord (m : Memory) (a v : Word) : Memory :=
  (m.writeByte (Memory.lowCell a) (v.extractLsb' 0 8)).writeByte (Memory.highCell a) (v.extractLsb' 8 8)

/-! ## Protection -/

/-- Condition 1 of R57: user mode and an address of 0x8000 or above. It is the data check's pattern too (R58). -/
def cond1Holds (a psr : Word) : Bool := userMode psr && decide (0x8000 ≤ a.toNat)

/-- Condition 2 of R57: 0x2000 to 0x7FFF, in both modes. -/
def cond2Holds (pc : Word) : Bool := decide (0x2000 ≤ pc.toNat ∧ pc.toNat < 0x8000)

/-- Condition 3 of R57: 0xA000 to 0xFFFF, in both modes. -/
def cond3Holds (pc : Word) : Bool := decide (0xA000 ≤ pc.toNat ∧ pc.toNat ≤ 0xFFFF)

/-- The fetch check (R57), naming the lowest-numbered condition that holds (R101; D21, log 20). -/
def fetchForbidden (pc psr : Word) : Option FetchCond :=
  if cond1Holds pc psr then some .cond1
  else if cond2Holds pc then some .cond2
  else if cond3Holds pc then some .cond3
  else none

/-- `dataAllowed` (R58). -/
def dataAllowed (ea psr : Word) : Bool := !cond1Holds ea psr

/-- The data check of LDR and STR, before any access or write (R240, R301). -/
def guardData (ea : Word) (s : State) (k : Answer) : Answer :=
  if dataAllowed ea s.psr then k else .fault (.dataProtection ea s.pc)

/-- The word the step executes, `MemRead(pc, 1)` (R53, R70). -/
def fetchWord (s : State) : Word := s.mem.readWord s.pc

/-! ## Single writes -/

/-- The snapshot cleared for a new step (R111). -/
def clearSnap (s : State) : State := { s with snap := Snapshot.cleared }

/-- `pc <- target` (R12, R110). -/
def setPc (target : Word) (s : State) : State := { s with pc := target }

/-- `pc <- trunc16(pc + 1)` (R110). -/
def advancePc (s : State) : State := setPc s.pcNext s

/-- `writeReg(d, v)` (R109): the register, and the snapshot's record of it. -/
def writeReg (d : RegIdx) (v : Word) (s : State) : State :=
  { s with
    regs := s.regs.set d.toNat v (by have := d.isLt; omega)
    snap := { s.snap with regWE := true, rd := d, regValue := v } }

/-- A condition code written to the psr and recorded in the snapshot (R30, R106). -/
def setCode (c : BitVec 3) (s : State) : State :=
  { s with
    psr := withNzp s.psr c
    snap := { s.snap with nzpWE := true, nzpValue := c } }

/-- `setNZP(v)` (R106): the code of the result read as signed. -/
def setNzp (v : Word) (s : State) : State := setCode (nzpOf v.toInt) s

/-- `setNZPcmp(z)` (R106): the code of an exact comparison. -/
def setNzpCmp (z : Int) (s : State) : State := setCode (nzpOf z) s

/-- `psr[15] <- b` (R260, R262). -/
def setPriv (b : BitVec 1) (s : State) : State := { s with psr := withPriv s.psr b }

/-- The snapshot's data-memory fields (R241, R242). -/
def recordData (we : Bool) (addr v : Word) (s : State) : State :=
  { s with snap := { s.snap with dmemWE := we, dmemAddr := addr, dmemValue := v } }

/-- `MemWrite(ea, 1, v)` with its snapshot record (R242). -/
def storeWord (ea v : Word) (s : State) : State :=
  recordData true ea v { s with mem := s.mem.writeWord ea v }

/-! ## Whole effects shared by instructions -/

/-- A retired instruction that writes nothing and goes on (R130). -/
def continueOnly (s : State) : Answer := .next (advancePc (clearSnap s))

/-- A retired instruction that only sets the pc (R110). -/
def jumpTo (target : Word) (s : State) : Answer := .next (setPc target (clearSnap s))

/-- A result register and its flags, then the next instruction (R106, R109, R110; D6, log 9). -/
def writeResult (d : RegIdx) (v : Word) (s : State) : Answer :=
  .next (advancePc (setNzp v (writeReg d v (clearSnap s))))

/-- A comparison's code, then the next instruction (R106, R110). -/
def compareResult (z : Int) (s : State) : Answer :=
  .next (advancePc (setNzpCmp z (clearSnap s)))

/-- The link: R7 gets `pc + 1`, which sets the flags under `link_writes_nzp` (R26, R107, R204; log 9). -/
def link (c : Config) (s : State) : State :=
  if c.linkWritesNzp then setNzp s.pcNext (writeReg 7 s.pcNext s) else writeReg 7 s.pcNext s

/-- A subroutine call to a target computed before the link is written (R104, R204, R206). -/
def callTo (c : Config) (target : Word) (s : State) : Answer :=
  .next (setPc target (link c (clearSnap s)))

/-- TAKING THE TRAP, the machine's one trap entry (R260, R306): R7 gets the return address, the privilege bit
is set, the flags follow the link, the pc goes to `0x8000 | vec`; nothing else is saved. -/
def takeTrap (c : Config) (vec : BitVec 8) (s : State) : State :=
  setPc (trapTarget vec) (setPriv 1 (link c (clearSnap s)))

/-- RETURNING FROM IT (R262, R308): the pc from R7, the privilege bit cleared, nothing else restored. -/
def returnFromTrap (s : State) : State :=
  setPc (s.reg 7) (setPriv 0 (clearSnap s))

/-- The documented non-advancing no-op (R89, R247): the step retires, nothing is written, the pc stays. -/
def stall (s : State) : Answer := .next (clearSnap s)

/-- The stop under the value `fault` of `unassigned_policy` or `hiconst0_policy` (R247, R265, R302). -/
def illegal (I : Word) (s : State) : Answer := .fault (.illegalInstruction s.pc I)

/-- What a retired step adds to the instruction's effect: the trace record's address and word (R112, R320), the
snapshot's open source indices as free values (R32, D23, log 5), and the count of draws (log 4). -/
def retire (pc I : Word) (s : State) : State :=
  { s with
    snap := { s.snap with rsIdx := Config.rsIdxDraw s.draws, rtIdx := Config.rtIdxDraw s.draws }
    retired := some ⟨pc, I⟩
    draws := s.draws + 1 }

/-- An answer with its next state changed; a fault or a refusal as it is (R105). -/
def onNext (f : State → State) : Answer → Answer
  | .next s => .next (f s)
  | .fault r => .fault r
  | .refused r => .refused r

/-- The step of R100 around the execution of an instruction: the fetch check comes before the word is read (R101); a
fault or a refusal of the instruction is the step's (R105, R305), and a retired instruction leaves its trace record
(R320). -/
def stepBy (run : Instr → State → Answer) (s : State) : Answer :=
  match fetchForbidden s.pc s.psr with
  | some cond => .fault (.fetchProtection s.pc cond)
  | none => onNext (retire s.pc (fetchWord s)) (run (decode (fetchWord s)) s)

end Sys2Proof.Machine
end

