-- ==== Sys2Proof/Machine/Arithmetic.lean ====
section
/-! DEFINITION. The arithmetic family, opcode 0001 (R140 to R144). Results wrap modulo 2^16 (R113). -/

namespace Sys2Proof.Machine

/-- ADD (R140). -/
def execAdd (d a b : RegIdx) (s : State) : Answer := writeResult d (s.reg a + s.reg b) s

/-- MUL, the low 16 bits of the product (R114, R141). -/
def execMul (d a b : RegIdx) (s : State) : Answer := writeResult d (s.reg a * s.reg b) s

/-- SUB (R142). -/
def execSub (d a b : RegIdx) (s : State) : Answer := writeResult d (s.reg a - s.reg b) s

/-- DIV under any parameters (R143); the draw is this step's (log 7). -/
def execDivWith (c : Config) (d a b : RegIdx) (s : State) : Answer :=
  writeResult d (divide c (Config.div0Draw s.draws) (s.reg a) (s.reg b)) s

/-- DIV (R143). -/
def execDiv (d a b : RegIdx) (s : State) : Answer := execDivWith config d a b s

/-- ADDI (R144). -/
def execAddi (d a : RegIdx) (imm : Word) (s : State) : Answer := writeResult d (s.reg a + imm) s

end Sys2Proof.Machine
end

