-- ==== Sys2Proof/Machine/Branch.lean ====
section
/-! DEFINITION. The branch family, opcode 0000 (R130 to R132). -/

namespace Sys2Proof.Machine

/-- BR with a mask (R131): to `pc + 1 + off` when the mask meets the condition code, else to `pc + 1`. -/
def branch (mask : BitVec 3) (off : Word) (s : State) : Answer :=
  if branchTaken mask s.psr then jumpTo (relativeTarget s off) s else continueOnly s

/-- NOP (R130): the mask 000 is never met and the offset is not used. -/
def execNop (_off : Word) (s : State) : Answer := continueOnly s

/-- BRp, mask 001 (R131, R132). -/
def execBrp (off : Word) (s : State) : Answer := branch 0b001 off s

/-- BRz, mask 010 (R131, R132). -/
def execBrz (off : Word) (s : State) : Answer := branch 0b010 off s

/-- BRzp, mask 011 (R131, R132). -/
def execBrzp (off : Word) (s : State) : Answer := branch 0b011 off s

/-- BRn, mask 100 (R131, R132). -/
def execBrn (off : Word) (s : State) : Answer := branch 0b100 off s

/-- BRnp, mask 101 (R131, R132). -/
def execBrnp (off : Word) (s : State) : Answer := branch 0b101 off s

/-- BRnz, mask 110 (R131, R132). -/
def execBrnz (off : Word) (s : State) : Answer := branch 0b110 off s

/-- BRnzp, mask 111 (R131, R132). -/
def execBrnzp (off : Word) (s : State) : Answer := branch 0b111 off s

end Sys2Proof.Machine
end

