-- ==== Sys2Proof/Machine/Compare.lean ====
section
/-! DEFINITION. The compare family, opcode 0010 (R160 to R163). Only the condition code is written. -/

namespace Sys2Proof.Machine

/-- CMP (R160). -/
def execCmp (a b : RegIdx) (s : State) : Answer := compareResult (diffSigned (s.reg a) (s.reg b)) s

/-- CMPU (R161). -/
def execCmpu (a b : RegIdx) (s : State) : Answer := compareResult (diffUnsigned (s.reg a) (s.reg b)) s

/-- CMPI: against the signed 7-bit immediate (R162). -/
def execCmpi (a : RegIdx) (imm : BitVec 7) (s : State) : Answer :=
  compareResult (diffSigned (s.reg a) (sext imm)) s

/-- CMPIU under any parameters (R163): the final computation wins. -/
def execCmpiuWith (c : Config) (a : RegIdx) (uimm : BitVec 7) (s : State) : Answer :=
  compareResult (diffFinal c.cmpiuFinal (s.reg a) uimm) s

/-- CMPIU (R163). -/
def execCmpiu (a : RegIdx) (uimm : BitVec 7) (s : State) : Answer := execCmpiuWith config a uimm s

end Sys2Proof.Machine
end

