-- ==== Sys2Proof/Machine/Jump.lean ====
section
/-! DEFINITION. Jump, opcode 1100, and subroutine call, opcode 0100 (R200 to R206). No target is checked here:
the next step's fetch checks it. -/

namespace Sys2Proof.Machine

/-- JMPR (R200). -/
def execJmpr (a : RegIdx) (s : State) : Answer := jumpTo (s.reg a) s

/-- JMP (R202). -/
def execJmp (off : Word) (s : State) : Answer := jumpTo (relativeTarget s off) s

/-- JSRR under any parameters (R204): the target is read before R7 is written (R104; D11, log 17). -/
def execJsrrWith (c : Config) (a : RegIdx) (s : State) : Answer := callTo c (s.reg a) s

/-- JSRR (R204). -/
def execJsrr (a : RegIdx) (s : State) : Answer := execJsrrWith config a s

/-- JSR under any parameters (R206). -/
def execJsrWith (c : Config) (imm : BitVec 11) (s : State) : Answer := callTo c (callTarget s.pc imm) s

/-- JSR (R206). -/
def execJsr (imm : BitVec 11) (s : State) : Answer := execJsrWith config imm s

end Sys2Proof.Machine
end

