-- ==== Sys2Proof/Machine/LoadStore.lean ====
section
/-! DEFINITION. Load 0110, store 0111, load-immediate low 1001 and high 1101 (R240 to R247). -/

namespace Sys2Proof.Machine

/-- The effect of an allowed load from `ea` (R241). -/
def loadFrom (d : RegIdx) (ea : Word) (s : State) : Answer :=
  .next (advancePc (recordData false ea (s.mem.readWord ea)
    (setNzp (s.mem.readWord ea) (writeReg d (s.mem.readWord ea) (clearSnap s)))))

/-- LDR (R240, R241): the check precedes the read and every write. -/
def execLdr (d a : RegIdx) (off : Word) (s : State) : Answer :=
  guardData (effectiveAddress (s.reg a) off) s (loadFrom d (effectiveAddress (s.reg a) off) s)

/-- The effect of an allowed store of `v` to `ea` (R242). -/
def storeTo (ea v : Word) (s : State) : Answer := .next (advancePc (storeWord ea v (clearSnap s)))

/-- STR (R240, R242): register `b` stored at the base `a` plus the offset. -/
def execStr (b a : RegIdx) (off : Word) (s : State) : Answer :=
  guardData (effectiveAddress (s.reg a) off) s (storeTo (effectiveAddress (s.reg a) off) (s.reg b) s)

/-- CONST: the register replaced entirely (R243). -/
def execConst (d : RegIdx) (imm : Word) (s : State) : Answer := writeResult d imm s

/-- HICONST: the high byte replaced, the low byte kept (R244). -/
def execHiconst (d : RegIdx) (uimm : BitVec 8) (s : State) : Answer :=
  writeResult d (withHighByte (s.reg d) uimm) s

/-- Opcode 1101 with bit 8 = 0 under any parameters (R247). The bits carried only name the word (log 11). -/
def execHiconstStallWith (c : Config) (d : RegIdx) (low : BitVec 8) (s : State) : Answer :=
  match c.hiconst0Policy with
  | .stall => stall s
  | .fault => illegal (encode (.hiconstStall d low)) s

/-- Opcode 1101 with bit 8 = 0 (R247). -/
def execHiconstStall (d : RegIdx) (low : BitVec 8) (s : State) : Answer := execHiconstStallWith config d low s

end Sys2Proof.Machine
end

