-- ==== Sys2Proof/Machine/Logical.lean ====
section
/-! DEFINITION. The logical family, opcode 0101 (R180 to R184). -/

namespace Sys2Proof.Machine

/-- AND (R180). -/
def execAnd (d a b : RegIdx) (s : State) : Answer := writeResult d (s.reg a &&& s.reg b) s

/-- NOT (R181). -/
def execNot (d a : RegIdx) (s : State) : Answer := writeResult d (~~~ s.reg a) s

/-- OR (R182). -/
def execOr (d a b : RegIdx) (s : State) : Answer := writeResult d (s.reg a ||| s.reg b) s

/-- XOR (R183). -/
def execXor (d a b : RegIdx) (s : State) : Answer := writeResult d (s.reg a ^^^ s.reg b) s

/-- ANDI, with the sign-extended immediate as mask (R184). -/
def execAndi (d a : RegIdx) (imm : Word) (s : State) : Answer := writeResult d (s.reg a &&& imm) s

end Sys2Proof.Machine
end

