-- ==== Sys2Proof/Machine/Shift.lean ====
section
/-! DEFINITION. The shift and modulo family, opcode 1010 (R220 to R223). -/

namespace Sys2Proof.Machine

/-- SLL (R220). -/
def execSll (d a : RegIdx) (k : BitVec 4) (s : State) : Answer := writeResult d (shiftLeft (s.reg a) k) s

/-- SRA (R221). -/
def execSra (d a : RegIdx) (k : BitVec 4) (s : State) : Answer := writeResult d (shiftRightArith (s.reg a) k) s

/-- SRL (R222). -/
def execSrl (d a : RegIdx) (k : BitVec 4) (s : State) : Answer := writeResult d (shiftRightLogical (s.reg a) k) s

/-- MOD under any parameters (R223); the draw is this step's (log 7). -/
def execModWith (c : Config) (d a b : RegIdx) (s : State) : Answer :=
  writeResult d (modulo c (Config.div0Draw s.draws) (s.reg a) (s.reg b)) s

/-- MOD (R223). -/
def execMod (d a b : RegIdx) (s : State) : Answer := execModWith config d a b s

end Sys2Proof.Machine
end

