-- ==== Sys2Proof/Machine/System.lean ====
section
/-! DEFINITION. TRAP 1111, RTI 1000 and the opcodes of no family (R260 to R265). -/

namespace Sys2Proof.Machine

/-- TRAP under any parameters (R260), in both modes (R312; D22, log 21). -/
def execTrapWith (c : Config) (vec : BitVec 8) (s : State) : Answer := .next (takeTrap c vec s)

/-- TRAP (R260). -/
def execTrap (vec : BitVec 8) (s : State) : Answer := execTrapWith config vec s

/-- RTI (R262), in both modes (R312; D22, log 21). -/
def execRti (s : State) : Answer := .next (returnFromTrap s)

/-- An opcode of no family under each policy of R265. -/
def execUnassignedWith (c : Config) (I : Word) (s : State) : Answer :=
  match c.unassignedPolicy with
  | .refuse => .refused (.unassignedOpcode I)
  | .fault  => illegal I s
  | .stall  => stall s

/-- Opcode 0011 (R90, R265). -/
def execUnassigned0011 (low : BitVec 12) (s : State) : Answer :=
  execUnassignedWith config (encode (.unassigned0011 low)) s

/-- Opcode 1011 (R90, R265). -/
def execUnassigned1011 (low : BitVec 12) (s : State) : Answer :=
  execUnassignedWith config (encode (.unassigned1011 low)) s

/-- Opcode 1110 (R90, R265). -/
def execUnassigned1110 (low : BitVec 12) (s : State) : Answer :=
  execUnassignedWith config (encode (.unassigned1110 low)) s

end Sys2Proof.Machine
end

