-- ==== Sys2Proof/Machine/Dispatch.lean ====
section
/-! DEFINITION. The dispatch of R102: one arm per constructor of Instr, each one call of that instruction's meaning. -/

namespace Sys2Proof.Machine

def exec (i : Instr) (s : State) : Host.Outcome State Fault Refusal :=
  match i with
  | .nop off => Sys2Proof.Machine.execNop off s
  | .brp off => Sys2Proof.Machine.execBrp off s
  | .brz off => Sys2Proof.Machine.execBrz off s
  | .brzp off => Sys2Proof.Machine.execBrzp off s
  | .brn off => Sys2Proof.Machine.execBrn off s
  | .brnp off => Sys2Proof.Machine.execBrnp off s
  | .brnz off => Sys2Proof.Machine.execBrnz off s
  | .brnzp off => Sys2Proof.Machine.execBrnzp off s
  | .add rd rs rt => Sys2Proof.Machine.execAdd rd rs rt s
  | .mul rd rs rt => Sys2Proof.Machine.execMul rd rs rt s
  | .sub rd rs rt => Sys2Proof.Machine.execSub rd rs rt s
  | .div rd rs rt => Sys2Proof.Machine.execDiv rd rs rt s
  | .addi rd rs imm => Sys2Proof.Machine.execAddi rd rs imm s
  | .cmp rs rt => Sys2Proof.Machine.execCmp rs rt s
  | .cmpu rs rt => Sys2Proof.Machine.execCmpu rs rt s
  | .cmpi rs imm => Sys2Proof.Machine.execCmpi rs imm s
  | .cmpiu rs uimm => Sys2Proof.Machine.execCmpiu rs uimm s
  | .jsrr rs => Sys2Proof.Machine.execJsrr rs s
  | .jsr imm => Sys2Proof.Machine.execJsr imm s
  | .and rd rs rt => Sys2Proof.Machine.execAnd rd rs rt s
  | .not rd rs => Sys2Proof.Machine.execNot rd rs s
  | .or rd rs rt => Sys2Proof.Machine.execOr rd rs rt s
  | .xor rd rs rt => Sys2Proof.Machine.execXor rd rs rt s
  | .andi rd rs imm => Sys2Proof.Machine.execAndi rd rs imm s
  | .ldr rd rs off => Sys2Proof.Machine.execLdr rd rs off s
  | .str rt rs off => Sys2Proof.Machine.execStr rt rs off s
  | .rti => Sys2Proof.Machine.execRti s
  | .const rd imm => Sys2Proof.Machine.execConst rd imm s
  | .sll rd rs amount => Sys2Proof.Machine.execSll rd rs amount s
  | .sra rd rs amount => Sys2Proof.Machine.execSra rd rs amount s
  | .srl rd rs amount => Sys2Proof.Machine.execSrl rd rs amount s
  | .mod rd rs rt => Sys2Proof.Machine.execMod rd rs rt s
  | .jmpr rs => Sys2Proof.Machine.execJmpr rs s
  | .jmp off => Sys2Proof.Machine.execJmp off s
  | .hiconst rd uimm => Sys2Proof.Machine.execHiconst rd uimm s
  | .hiconstStall rd low => Sys2Proof.Machine.execHiconstStall rd low s
  | .trap vec => Sys2Proof.Machine.execTrap vec s
  | .unassigned0011 low => Sys2Proof.Machine.execUnassigned0011 low s
  | .unassigned1011 low => Sys2Proof.Machine.execUnassigned1011 low s
  | .unassigned1110 low => Sys2Proof.Machine.execUnassigned1110 low s

end Sys2Proof.Machine
end

