-- ==== Sys2Proof/Machine/Step.lean ====
section
/-! DEFINITION. The step of R100: fetch check, fetch, decode, execute, trace record. -/

namespace Sys2Proof.Machine

/-- One step of the machine under the spec's default parameters (R100, R101, R305). -/
def step (s : State) : Host.Outcome State Fault Refusal := stepBy exec s

/-- The state with a table word placed where the next step fetches: at the pc (R70; log 22). -/
def State.withFetchWord (s : State) (nbits w : Nat) : State :=
  { s with mem := s.mem.writeWord s.pc (tableWord nbits w) }

end Sys2Proof.Machine
end

