-- ==== Sys2Proof/Machine/Parameters.lean ====
section
/-! DEFINITION. The machine under any values of R8's parameters: an instruction, a step. `step` is the one under
Machine.config, the spec's defaults. The driver under any values is in Driver.lean. -/

namespace Sys2Proof.Machine

/-- An instruction under the parameters `c` (R8). The first ten arms are the instructions a parameter touches, the
others mean the same under all. -/
def execWith (c : Config) (i : Instr) (s : State) : Answer :=
  match i with
  | .div rd rs rt => execDivWith c rd rs rt s
  | .cmpiu rs uimm => execCmpiuWith c rs uimm s
  | .jsrr rs => execJsrrWith c rs s
  | .jsr imm => execJsrWith c imm s
  | .mod rd rs rt => execModWith c rd rs rt s
  | .hiconstStall rd low => execHiconstStallWith c rd low s
  | .trap vec => execTrapWith c vec s
  | .unassigned0011 low => execUnassignedWith c (encode (.unassigned0011 low)) s
  | .unassigned1011 low => execUnassignedWith c (encode (.unassigned1011 low)) s
  | .unassigned1110 low => execUnassignedWith c (encode (.unassigned1110 low)) s
  | .nop _ | .brp _ | .brz _ | .brzp _ | .brn _ | .brnp _ | .brnz _ | .brnzp _ | .add _ _ _ | .mul _ _ _
  | .sub _ _ _ | .addi _ _ _ | .cmp _ _ | .cmpu _ _ | .cmpi _ _ | .and _ _ _ | .not _ _ | .or _ _ _
  | .xor _ _ _ | .andi _ _ _ | .ldr _ _ _ | .str _ _ _ | .rti | .const _ _ | .sll _ _ _ | .sra _ _ _
  | .srl _ _ _ | .jmpr _ | .jmp _ | .hiconst _ _ => exec i s

/-- A step under the parameters `c`: the fetch check, the record and the rest are the same under all (R8, R100). -/
def stepWith (c : Config) (s : State) : Answer := stepBy (execWith c) s

end Sys2Proof.Machine
end

