-- ==== Sys2Proof/Machine/Trace.lean ====
section
/-! DEFINITION. The trace record and the trace line (R320 to R327), and reading the snapshot (R33). -/

namespace Sys2Proof.Machine

/-- The trace record of one retired step (R320). -/
structure TraceRecord where
  pc   : Word
  word : Word
  snap : Snapshot
  deriving DecidableEq, Repr

/-- The record of the step retired last, none before the first (R320, R326). -/
def State.traceRecord (s : State) : Option TraceRecord :=
  s.retired.map fun r => ⟨r.pc, r.word, s.snap⟩

/-- Reading the snapshot, refused before the first retired step (R33; D25, log 3). -/
def State.readSnapshot (s : State) : Except Refusal Snapshot :=
  match s.retired with
  | some _ => .ok s.snap
  | none => .error .snapshotBeforeFirstStep

/-- A digit 0-9 A-F, upper case (R322; D16, log 23). -/
def hexDigit (n : Nat) : Char := if n < 10 then Char.ofNat (48 + n) else Char.ofNat (55 + n)

/-- Four hexadecimal digits with leading zeros (R322). -/
def hex4 (w : Word) : List Char :=
  [hexDigit (field w 12 4).toNat, hexDigit (field w 8 4).toNat, hexDigit (field w 4 4).toNat, hexDigit (field w 0 4).toNat]

/-- A write flag, `0` or `1` (R322). -/
def flagChar (b : Bool) : List Char := if b then ['1'] else ['0']

/-- Sixteen characters, bit 15 first (R322). -/
def bin16 (w : Word) : List Char := (List.range 16).flatMap fun k => flagChar (w.getLsbD (15 - k))

/-- One decimal digit: a register index, or a condition code (R322). -/
def digit3 (v : BitVec 3) : List Char := [hexDigit v.toNat]

/-- The ten fields in R321's order. -/
def traceFields (r : TraceRecord) : List (List Char) :=
  [hex4 r.pc, bin16 r.word, flagChar r.snap.regWE, digit3 r.snap.rd, hex4 r.snap.regValue, flagChar r.snap.nzpWE,
   digit3 r.snap.nzpValue, flagChar r.snap.dmemWE, hex4 r.snap.dmemAddr, hex4 r.snap.dmemValue]

/-- The fields separated by one space, ended by one line feed (R321, R322). -/
def traceLine (r : TraceRecord) : String :=
  String.ofList ((traceFields r).intersperse [' '] ++ [['\n']]).flatten

end Sys2Proof.Machine
end

