-- ==== Sys2Proof/Machine/Driver.lean ====
section
/-! DEFINITION. The host's driver loop at its interface (R356, R358): halt test before each step, stop on a fault or
a refusal, one trace line per retired step. -/

namespace Sys2Proof.Machine

/-- How a run stands when the driver stops looking (R358). `stepLimit` is the model's: the spec's driver has no limit,
so a run is looked at for a number of steps (log 25). -/
inductive RunEnd where
  | halted
  | faulted (r : Fault)
  | refused (r : Refusal)
  | stepLimit
  deriving DecidableEq, Repr

/-- A driver's result: how the run stands, the state it is in, the trace records it emitted in order (R326). -/
structure Run where
  ending : RunEnd
  state  : State
  trace  : List TraceRecord
  deriving DecidableEq, Repr

/-- At most `n` turns of the driver loop around a step (R356). -/
def driveBy (run : State → Answer) (haltPc : Word) : Nat → State → Run
  | 0, s => ⟨if s.pc = haltPc then .halted else .stepLimit, s, []⟩
  | n + 1, s =>
    if s.pc = haltPc then ⟨.halted, s, []⟩
    else match run s with
      | .next t => ⟨(driveBy run haltPc n t).ending, (driveBy run haltPc n t).state,
          t.traceRecord.toList ++ (driveBy run haltPc n t).trace⟩
      | .fault r => ⟨.faulted r, s, []⟩
      | .refused r => ⟨.refused r, s, []⟩

/-- The driver of the machine, with a halt address. -/
def drive (haltPc : Word) (n : Nat) (s : State) : Run := driveBy step haltPc n s

/-- The driver of the machine under the parameters `c`, `halt_pc` among them (R8, R356). -/
def driveWith (c : Config) (n : Nat) (s : State) : Run := driveBy (stepWith c) c.haltPc n s

end Sys2Proof.Machine
end

