-- ==== Sys2Proof/Machine/Loader.lean ====
section
/-! DEFINITION. The host's load of an object file into memory before the first step (R352 to R354), at the
interface R6 (a) gives it. It changes memory only. -/

namespace Sys2Proof.Machine

/-- Where the reading of the stream stands: outside a segment, due to read a segment's address or its count, or due
to write a word at `addr` with `more` words of the segment after it (R352). -/
inductive LoadPhase where
  | scan
  | address
  | count (addr : Word)
  | data (addr more : Nat)
  deriving DecidableEq, Repr

/-- A segment header: code 0xDECA or data 0xDADA, handled identically (R352). -/
def isHeader (w : Word) : Bool := w == 0xDECA || w == 0xDADA

/-- The rest of the stream from a phase on (R352, R353): the end of the stream just stops, a word outside a segment
that is no header is skipped, and a word due past 0xFFFF refuses the load (D24, log 24). -/
def loadWords (p : LoadPhase) (ws : List Word) (m : Memory) : Except Refusal Memory :=
  match ws with
  | [] => .ok m
  | w :: rest =>
    match p with
    | .scan => loadWords (if isHeader w then .address else .scan) rest m
    | .address => loadWords (.count w) rest m
    | .count a => loadWords (if w = 0 then .scan else .data a.toNat (w.toNat - 1)) rest m
    | .data a more =>
      if a < 65536 then
        loadWords (match more with | 0 => .scan | n + 1 => .data (a + 1) n) rest (m.writeWord (BitVec.ofNat 16 a) w)
      else .error (.loadPastEnd a)

/-- The words of an object file's bytes, high byte first (R352; D18, log 24). -/
def wordsOfBytes : List Byte → List Word
  | hi :: lo :: rest => (hi ++ lo) :: wordsOfBytes rest
  | _ => []

/-- One object file loaded (R352): only memory changes (R354; D19, log 24). -/
def loadFile (file : List Byte) (s : State) : Answer :=
  match loadWords .scan (wordsOfBytes file) s.mem with
  | .ok m => .next { s with mem := m }
  | .error r => .refused r

/-- Several object files, in argument order, into one memory image (R353, R354). -/
def loadFiles : List (List Byte) → State → Answer
  | [], s => .next s
  | f :: fs, s =>
    match loadFile f s with
    | .next t => loadFiles fs t
    | .fault r => .fault r
    | .refused r => .refused r

/-- Boot: reset, then every load (R354). -/
def boot (files : List (List Byte)) : Answer := loadFiles files State.reset

end Sys2Proof.Machine
end

