-- ==== Sys2Proof/Safety.lean ====
section
/-! DEFINITION. What the claims are stated with: the invariant of the machine, what each kind of instruction does
and leaves as it was, and how two states compare. Numbers are the spec's integers (R10). -/

namespace Sys2Proof.Machine

/-- `u(v)` of R10. -/
def u (v : Word) : Int := v.toNat

/-- `s(v)` of R10. -/
def sgn (v : Word) : Int := v.toInt

/-- `trunc16(z)` of R10: the integer modulo 2^16. -/
def trunc16 (z : Int) : Word := BitVec.ofInt 16 z

/-- The N bit of the condition code, bit 2 (R27). -/
def flagN (s : State) : Bool := (nzp s.psr).getLsbD 2

/-- The Z bit, bit 1 (R27). -/
def flagZ (s : State) : Bool := (nzp s.psr).getLsbD 1

/-- The P bit, bit 0 (R27). -/
def flagP (s : State) : Bool := (nzp s.psr).getLsbD 0

/-- `trunc16(pc + 1)` in the spec's integers (R110). -/
def nextPc (s : State) : Word := trunc16 (u s.pc + 1)

/-- Where a branch goes whose condition is `taken` (R131). -/
def branchPc (taken : Bool) (off : Word) (s : State) : Word :=
  if taken then trunc16 (u s.pc + 1 + sgn off) else nextPc s

/-! ## The invariant -/

/-- Exactly one of N, Z, P (R30). -/
def oneHot (c : BitVec 3) : Bool := c == 0b001 || c == 0b010 || c == 0b100

/-- An address some mode may fetch from (R55, R57). -/
def fetchable (pc : Word) : Bool := decide (pc.toNat < 0x2000 ∨ (0x8000 ≤ pc.toNat ∧ pc.toNat < 0xA000))

/-- What holds at reset and is kept by every step. -/
structure State.Inv (s : State) : Prop where
  /-- The memory is in its canonical form. -/
  memory : s.mem.wf = true
  /-- Bits 14:3 of the psr are zero (R28). -/
  reserved : psrReserved s.psr = 0
  /-- The condition code is one-hot, or 000 before the first flag write (R30). -/
  code : nzp s.psr = 0 ∨ oneHot (nzp s.psr) = true
  /-- A snapshot without a register write has zero register fields (R323). -/
  regFields : s.snap.regWE = false → s.snap.rd = 0 ∧ s.snap.regValue = 0
  /-- A snapshot without a flag write has a zero flag field, and with one the psr's code (R112, R323). -/
  codeField : s.snap.nzpValue = if s.snap.nzpWE then nzp s.psr else 0
  /-- The instruction retired last was fetched from a fetchable address, so never from 0xFFFF (R23). -/
  retiredAt : ∀ r, s.retired = some r → fetchable r.pc = true

/-! ## What an instruction leaves -/

/-- Every byte of memory reads as before. -/
def SameMemory (s t : State) : Prop := ∀ k, t.mem.readByte k = s.mem.readByte k

/-- Every byte of memory outside the word at `ea` reads as before. -/
def SameMemoryBut (ea : Word) (s t : State) : Prop :=
  ∀ k, k ≠ Memory.lowCell ea → k ≠ Memory.highCell ea → t.mem.readByte k = s.mem.readByte k

/-- No register, and the snapshot says so (R323). -/
structure NoRegister (s t : State) : Prop where
  regs : ∀ r, t.reg r = s.reg r
  snap : t.snap.regWE = false ∧ t.snap.rd = 0 ∧ t.snap.regValue = 0

/-- Register `d` gets `v`, every other register is unchanged, and the snapshot says so (R109). -/
structure OneRegister (d : RegIdx) (v : Word) (s t : State) : Prop where
  value  : t.reg d = v
  others : ∀ r, r ≠ d → t.reg r = s.reg r
  snap   : t.snap.regWE = true ∧ t.snap.rd = d ∧ t.snap.regValue = v

/-- The condition code becomes `c`, and the snapshot says so (R106). -/
structure CodeSet (c : BitVec 3) (t : State) : Prop where
  code : nzp t.psr = c
  snap : t.snap.nzpWE = true ∧ t.snap.nzpValue = c

/-- The condition code is unchanged, and the snapshot says that it was not written (R323). -/
structure CodeKept (s t : State) : Prop where
  code : nzp t.psr = nzp s.psr
  snap : t.snap.nzpWE = false ∧ t.snap.nzpValue = 0

/-- The privilege bit and bits 14:3 of the psr are unchanged. -/
structure PsrRestKept (s t : State) : Prop where
  priv     : privBit t.psr = privBit s.psr
  reserved : psrReserved t.psr = psrReserved s.psr

/-- The snapshot records no data access (R323). -/
def NoDataRecord (t : State) : Prop :=
  t.snap.dmemWE = false ∧ t.snap.dmemAddr = 0 ∧ t.snap.dmemValue = 0

/-- The step's own bookkeeping is no instruction's business. -/
def BooksKept (s t : State) : Prop := t.retired = s.retired ∧ t.draws = s.draws

/-! ## What each kind of instruction does -/

/-- A result register, its code, the next instruction. -/
structure ResultEffect (d : RegIdx) (v : Word) (s t : State) : Prop where
  reg  : OneRegister d v s t
  code : CodeSet (nzpOf (sgn v)) t
  psr  : PsrRestKept s t
  mem  : SameMemory s t
  data : NoDataRecord t
  pc   : t.pc = nextPc s
  rest : BooksKept s t

/-- A comparison's code, the next instruction. -/
structure CompareEffect (z : Int) (s t : State) : Prop where
  reg  : NoRegister s t
  code : CodeSet (nzpOf z) t
  psr  : PsrRestKept s t
  mem  : SameMemory s t
  data : NoDataRecord t
  pc   : t.pc = nextPc s
  rest : BooksKept s t

/-- Only the pc. -/
structure ControlEffect (target : Word) (s t : State) : Prop where
  reg  : NoRegister s t
  code : CodeKept s t
  psr  : PsrRestKept s t
  mem  : SameMemory s t
  data : NoDataRecord t
  pc   : t.pc = target
  rest : BooksKept s t

/-- The link's code: from the link value, or unchanged when `link_writes_nzp` is false (R107, R204). -/
def LinkCode (c : Config) (s t : State) : Prop :=
  if c.linkWritesNzp then CodeSet (nzpOf (sgn (nextPc s))) t else CodeKept s t

/-- A call: R7 gets the return address. -/
structure CallEffect (c : Config) (target : Word) (s t : State) : Prop where
  reg  : OneRegister 7 (nextPc s) s t
  code : LinkCode c s t
  psr  : PsrRestKept s t
  mem  : SameMemory s t
  data : NoDataRecord t
  pc   : t.pc = target
  rest : BooksKept s t

/-- Trap entry (R306): as a call, and the privilege bit is set. -/
structure TrapEffect (c : Config) (target : Word) (s t : State) : Prop where
  reg      : OneRegister 7 (nextPc s) s t
  code     : LinkCode c s t
  priv     : privBit t.psr = 1
  reserved : psrReserved t.psr = psrReserved s.psr
  mem      : SameMemory s t
  data     : NoDataRecord t
  pc       : t.pc = target
  rest     : BooksKept s t

/-- Trap return (R308): the pc from R7, the privilege bit cleared. -/
structure ReturnEffect (s t : State) : Prop where
  reg      : NoRegister s t
  code     : CodeKept s t
  priv     : privBit t.psr = 0
  reserved : psrReserved t.psr = psrReserved s.psr
  mem      : SameMemory s t
  data     : NoDataRecord t
  pc       : t.pc = s.reg 7
  rest     : BooksKept s t

/-- A load of `v` from `ea` (R241). -/
structure LoadEffect (d : RegIdx) (ea v : Word) (s t : State) : Prop where
  reg  : OneRegister d v s t
  code : CodeSet (nzpOf (sgn v)) t
  psr  : PsrRestKept s t
  mem  : SameMemory s t
  data : t.snap.dmemWE = false ∧ t.snap.dmemAddr = ea ∧ t.snap.dmemValue = v
  pc   : t.pc = nextPc s
  rest : BooksKept s t

/-- A store of `v` to `ea` (R242). -/
structure StoreEffect (ea v : Word) (s t : State) : Prop where
  reg    : NoRegister s t
  code   : CodeKept s t
  psr    : PsrRestKept s t
  stored : t.mem.readWord ea = v
  others : SameMemoryBut ea s t
  data   : t.snap.dmemWE = true ∧ t.snap.dmemAddr = ea ∧ t.snap.dmemValue = v
  pc     : t.pc = nextPc s
  rest   : BooksKept s t

/-- The answer is a next state that `P` holds of. -/
def Completes (a : Answer) (P : State → Prop) : Prop := ∃ t, a = .next t ∧ P t

/-! ## Two states compared -/

/-- The states agree on everything a user-mode program may reach: all but the words from 0x8000 up (R58, R311). -/
structure AgreeForUser (s t : State) : Prop where
  pc      : t.pc = s.pc
  regs    : t.regs = s.regs
  psr     : t.psr = s.psr
  snap    : t.snap = s.snap
  retired : t.retired = s.retired
  draws   : t.draws = s.draws
  memory  : ∀ a : Word, a.toNat < 0x8000 → t.mem.readWord a = s.mem.readWord a

/-- The same kind of answer: next states related, or the same reason to stop. -/
def SameAnswer (R : State → State → Prop) : Answer → Answer → Prop
  | .next s, .next t => R s t
  | .fault f, .fault g => f = g
  | .refused f, .refused g => f = g
  | _, _ => False

end Sys2Proof.Machine
end

