-- ==== Sys2Proof/Certificates/Slice0/Obligations.lean ====
section
/-! DEFINITION. The statements for the provers. Each docstring says which sentence of the spec it formalises, and names
the spec's own decision and the log entry where a clause rests on one. -/

open Sys2Proof Sys2Proof.Machine

/-! ## Encoding -/

/-- Decoding an encoded well-formed instruction gives it back. From 30_encoding.md formats and decode function;
92_eei_decisions.md D1 (log 13). -/
def Obligations.DecodeOfEncode : Prop :=
  ∀ i : Instr, i.wellFormed = true → decode (encode i) = i

/-- Every word decodes to an instruction whose immediates lie in their ranges. From 30_encoding.md immediate table
and decode function; 92_eei_decisions.md D1 (log 13). -/
def Obligations.DecodeGivesAWellFormedInstruction : Prop :=
  ∀ w : Word, (decode w).wellFormed = true

/-- Encoding a decoded word gives the word with its ignored bits zero, and no other bit is lost. From 30_encoding.md
formats, ignored bits; 92_eei_decisions.md D1 (log 13); 92_eei_decisions.md D2 (log 14). -/
def Obligations.EncodeOfDecodeClearsIgnoredBits : Prop :=
  ∀ w : Word, encode (decode w) = w &&& (decode w).usedBits

/-- Every word matches exactly one row of the opcode table, the row of the instruction it decodes to. From
30_encoding.md opcode map (every 16-bit word matches exactly one row); 92_eei_decisions.md D1 (log 13). -/
def Obligations.EveryWordMatchesExactlyItsOwnRow : Prop :=
  (opcodeTable.map OpcodeRow.mnemonic).Nodup ∧
  ∀ w : Word, (∃ r ∈ opcodeTable, r.holds w = true) ∧
    ∀ r ∈ opcodeTable, r.holds w = true ↔ r.mnemonic = (decode w).mnemonic

/-- The four most significant bits alone select the family. From 30_encoding.md opcode map (13 families, three
values of none). -/
def Obligations.TopFourBitsSelectTheFamily : Prop :=
  ∀ w : Word,
    [Family.branch, .arithmetic, .compare, .unassigned, .call, .logical, .load, .store,
     .returnFromTrap, .constLow, .shiftModulo, .unassigned, .jump, .constHigh, .unassigned, .trap][w.toNat / 4096]?
      = some (decode w).family

/-- Words written out in the spec's examples decode to the instructions they stand for. From 41_branch.md to
48_system.md, the example words; 92_eei_decisions.md D1 (log 13). -/
def Obligations.WrittenOutWordsDecode : Prop :=
  decode 0x0403 = .brz 3 ∧ decode 0x1283 = .add 1 2 3 ∧ decode 0x12B0 = .addi 1 2 0xFFF0 ∧
  decode 0x2340 = .cmpi 1 0x40 ∧ decode 0x40C0 = .jsrr 3 ∧ decode 0x4923 = .jsr 0x123 ∧
  decode 0x52AF = .andi 1 2 0x000F ∧ decode 0x62BF = .ldr 1 2 0xFFFF ∧ decode 0x7285 = .str 1 2 5 ∧
  decode 0x8000 = .rti ∧ decode 0x9005 = .const 0 5 ∧ decode 0xA294 = .sra 1 2 4 ∧ decode 0xC0C0 = .jmpr 3 ∧
  decode 0xCBFF = .jmp 0x3FF ∧ decode 0xD3AB = .hiconst 1 0xAB ∧ decode 0xF020 = .trap 0x20

/-! ## Reset and the invariant -/

/-- After reset every piece of state has the value of the reset table. Rule R34. -/
def Obligations.ResetValues : Prop :=
  State.reset.pc = 0x8200 ∧ State.reset.psr = 0x8000 ∧ (∀ r : RegIdx, State.reset.reg r = 0) ∧
  (∀ a : Word, State.reset.mem.readWord a = 0) ∧ State.reset.snap = Snapshot.cleared

/-- The machine runs under the spec's default parameters. From 00_scope.md parameter table (logs 6 to 12). -/
def Obligations.ParametersAreTheDefaults : Prop :=
  config.haltPc = 0x80FF ∧ config.divmodSigned = false ∧ config.div0 = .draw ∧ config.cmpiuFinal = .unsigned ∧
  config.linkWritesNzp = true ∧ config.unassignedPolicy = .refuse ∧ config.hiconst0Policy = .stall

/-- The reset state meets the invariant. From 10_state.md reset values; 10_state.md psr and condition code. -/
def Obligations.ResetMeetsTheInvariant : Prop :=
  State.reset.Inv

/-- Every step keeps the invariant. From 10_state.md psr bits 14:3 and condition code; 20_memory.md fetch
permission; 60_exceptions.md zeroing of trace fields. -/
def Obligations.EveryStepKeepsTheInvariant : Prop :=
  ∀ s t : State, s.Inv → step s = .next t → t.Inv

/-! ## The step -/

/-- When the fetch is allowed, a step is exec of the decoded word, then the retirement record. From 40_cycle.md the
step; 92_eei_decisions.md D3 (log 10). -/
def Obligations.StepRunsTheDecodedInstruction : Prop :=
  ∀ (i : Instr) (s : State), fetchForbidden s.pc s.psr = none → decode (s.mem.readWord s.pc) = i →
    step s = onNext (retire s.pc (s.mem.readWord s.pc)) (exec i s)

/-- An instruction placed at the pc is the one the next step runs. From 40_cycle.md the step; 30_encoding.md
formats; 92_eei_decisions.md D1 (log 13). -/
def Obligations.PlacedInstructionRunsNext : Prop :=
  ∀ (i : Instr) (s : State), i.wellFormed = true → fetchForbidden s.pc s.psr = none →
    step (s.withFetchWord 16 (encode i).toNat) =
      onNext (retire s.pc (encode i)) (exec i (s.withFetchWord 16 (encode i).toNat))

/-- A step faults on its fetch exactly when one of the three forbidden conditions holds. Rule R57. -/
def Obligations.FetchFaultsExactlyAtForbiddenAddresses : Prop :=
  ∀ s : State, (∃ c, step s = .fault (.fetchProtection s.pc c)) ↔
    ((u s.psr < 0x8000 ∧ 0x8000 ≤ u s.pc) ∨ (0x2000 ≤ u s.pc ∧ u s.pc < 0x8000) ∨
     (0xA000 ≤ u s.pc ∧ u s.pc ≤ 0xFFFF))

/-- The only faults are the fetch fault, naming the lowest-numbered forbidden condition, and the data fault of a
user-mode LDR or STR. From 60_exceptions.md fetch protection, data protection and priority; 40_cycle.md the fetch
check; 20_memory.md fetch permission; 92_eei_decisions.md D3, D4, D21 (logs 10, 11, 20). -/
def Obligations.OnlyProtectionFaultsExist : Prop :=
  ∀ (s : State) (f : Fault), step s = .fault f →
    (u s.psr < 0x8000 ∧ 0x8000 ≤ u s.pc ∧ f = .fetchProtection s.pc .cond1) ∨
    (¬ (u s.psr < 0x8000 ∧ 0x8000 ≤ u s.pc) ∧ 0x2000 ≤ u s.pc ∧ u s.pc < 0x8000 ∧
      f = .fetchProtection s.pc .cond2) ∨
    (¬ (u s.psr < 0x8000 ∧ 0x8000 ≤ u s.pc) ∧ 0xA000 ≤ u s.pc ∧ f = .fetchProtection s.pc .cond3) ∨
    (fetchForbidden s.pc s.psr = none ∧
      ∃ r a off, (decode (s.mem.readWord s.pc) = .ldr r a off ∨ decode (s.mem.readWord s.pc) = .str r a off) ∧
      u s.psr < 0x8000 ∧ 0x8000 ≤ u (effectiveAddress (s.reg a) off) ∧
      f = .dataProtection (effectiveAddress (s.reg a) off) s.pc)

/-- A step is refused exactly when a fetched word has opcode 0011, 1011 or 1110. From 30_encoding.md unassigned
opcodes; 60_exceptions.md priority; 92_eei_decisions.md D3 (log 10). -/
def Obligations.StepRefusesExactlyUnassignedOpcodes : Prop :=
  ∀ (s : State) (r : Refusal), step s = .refused r ↔
    fetchForbidden s.pc s.psr = none ∧
    ((s.mem.readWord s.pc).toNat / 4096 = 3 ∨ (s.mem.readWord s.pc).toNat / 4096 = 11 ∨
     (s.mem.readWord s.pc).toNat / 4096 = 14) ∧
    r = .unassignedOpcode (s.mem.readWord s.pc)

/-- The trace record has the pre-update pc and post-update register, memory and flag values. Rule R112. -/
def Obligations.StepRecordsPreUpdatePcAndPostUpdateValues : Prop :=
  ∀ s t : State, step s = .next t →
    t.traceRecord = some ⟨s.pc, s.mem.readWord s.pc, t.snap⟩ ∧
    (t.snap.regWE = true → t.snap.regValue = t.reg t.snap.rd) ∧
    (t.snap.nzpWE = true → t.snap.nzpValue = nzp t.psr) ∧
    ((decode (s.mem.readWord s.pc)).family = .load ∨ (decode (s.mem.readWord s.pc)).family = .store →
      t.snap.dmemValue = t.mem.readWord t.snap.dmemAddr)

/-- A retired step applies all of its writes, at most one register and one memory word, and a faulting step applies
none. Rule R105. -/
def Obligations.StepIsAllOrNothing : Prop :=
  (∀ s t : State, step s = .next t →
    (∃ t', exec (decode (s.mem.readWord s.pc)) s = .next t' ∧
      t.regs = t'.regs ∧ t.psr = t'.psr ∧ t.mem = t'.mem ∧ t.pc = t'.pc) ∧
    (t.snap.regWE = true → t.reg t.snap.rd = t.snap.regValue) ∧
    (∀ r, (t.snap.regWE = true ∧ r = t.snap.rd) ∨ t.reg r = s.reg r) ∧
    (t.snap.nzpWE = true → nzp t.psr = t.snap.nzpValue) ∧
    (t.snap.nzpWE = true ∨ nzp t.psr = nzp s.psr) ∧
    (t.snap.dmemWE = true ↔ (decode (s.mem.readWord s.pc)).family = .store) ∧
    (t.snap.dmemWE = true → ∃ b a off, decode (s.mem.readWord s.pc) = .str b a off ∧
      t.snap.dmemAddr = effectiveAddress (s.reg a) off ∧ t.snap.dmemValue = s.reg b ∧
      t.mem.readWord t.snap.dmemAddr = t.snap.dmemValue) ∧
    (∀ k, (t.snap.dmemWE = true ∧ (k = Memory.lowCell t.snap.dmemAddr ∨ k = Memory.highCell t.snap.dmemAddr)) ∨
      t.mem.readByte k = s.mem.readByte k) ∧
    ((decode (s.mem.readWord s.pc)).family = .trap ∨ (decode (s.mem.readWord s.pc)).family = .returnFromTrap ∨
      privBit t.psr = privBit s.psr) ∧
    psrReserved t.psr = psrReserved s.psr) ∧
  (∀ (s : State) (f : Fault) (h : Word) (n : Nat), step s = .fault f → (drive h (n + 1) s).state = s)

/-- Trace fields are zero where nothing was written. Rule R323. -/
def Obligations.SnapshotFieldsAreZeroUnlessWritten : Prop :=
  ∀ s t : State, step s = .next t →
    (t.snap.regWE = false → t.snap.rd = 0 ∧ t.snap.regValue = 0) ∧
    (t.snap.nzpWE = false → t.snap.nzpValue = 0) ∧
    ((decode (s.mem.readWord s.pc)).family ≠ .load → (decode (s.mem.readWord s.pc)).family ≠ .store →
      t.snap.dmemAddr = 0 ∧ t.snap.dmemValue = 0)

/-- TRAP, JSR and JSRR record register 7 and the link pc + 1, whatever their destination field holds. Rule R324. -/
def Obligations.LinkingInstructionsRecordRegisterSeven : Prop :=
  ∀ s t : State, step s = .next t →
    ((decode (s.mem.readWord s.pc)).family = .call ∨ (decode (s.mem.readWord s.pc)).family = .trap) →
    t.snap.regWE = true ∧ t.snap.rd = 7 ∧ t.snap.regValue = nextPc s

/-! ## The condition code -/

/-- The code of a result is N when bit 15 is set, Z when it is 0, else P. From 40_cycle.md condition flags. -/
def Obligations.ConditionCodeOfAResult : Prop :=
  ∀ v : Word, (0x8000 ≤ u v → nzpOf (sgn v) = 0b100) ∧ (u v = 0 → nzpOf (sgn v) = 0b010) ∧
    (1 ≤ u v → u v < 0x8000 → nzpOf (sgn v) = 0b001)

/-- A flag write leaves exactly one of N, Z, P; before the first one after reset the code is 000. Rule R30. -/
def Obligations.FlagWritesReplaceTheCodeByAOneHotCode : Prop :=
  nzp State.reset.psr = 0b000 ∧
  ∀ s t : State, step s = .next t →
    (t.snap.nzpWE = false → nzp t.psr = nzp s.psr) ∧
    (t.snap.nzpWE = true → nzp t.psr = 0b001 ∨ nzp t.psr = 0b010 ∨ nzp t.psr = 0b100)

/-- No instruction but a branch depends on N, Z or P. Rule R108. -/
def Obligations.FlagsAreReadOnlyByBranches : Prop :=
  ∀ (i : Instr) (c : BitVec 3) (s : State), i.family ≠ .branch →
    exec i { s with psr := withNzp s.psr c } =
      onNext (fun t => if t.snap.nzpWE then t else { t with psr := withNzp t.psr c }) (exec i s)

/-! ## Branches, jumps and calls -/

/-- NOP goes on; each BRcc goes to pc + 1 + offset exactly when one of its flags is set, and changes nothing else.
From 41_branch.md; 92_eei_decisions.md D1 (log 13); 92_eei_decisions.md D5 (log 15). -/
def Obligations.BranchesGoToTheirTarget : Prop :=
  ∀ (off : Word) (s : State),
    Completes (exec (.nop off) s) (ControlEffect (nextPc s) s) ∧
    Completes (exec (.brp off) s) (ControlEffect (branchPc (flagP s) off s) s) ∧
    Completes (exec (.brz off) s) (ControlEffect (branchPc (flagZ s) off s) s) ∧
    Completes (exec (.brzp off) s) (ControlEffect (branchPc (flagZ s || flagP s) off s) s) ∧
    Completes (exec (.brn off) s) (ControlEffect (branchPc (flagN s) off s) s) ∧
    Completes (exec (.brnp off) s) (ControlEffect (branchPc (flagN s || flagP s) off s) s) ∧
    Completes (exec (.brnz off) s) (ControlEffect (branchPc (flagN s || flagZ s) off s) s) ∧
    Completes (exec (.brnzp off) s) (ControlEffect (branchPc (flagN s || flagZ s || flagP s) off s) s)

/-- JMPR goes to its register, JMP to pc + 1 + offset, and nothing else changes. From 45_jump_call.md JMPR and JMP;
92_eei_decisions.md D5 (log 15). -/
def Obligations.JumpsGoToTheirTarget : Prop :=
  ∀ (a : RegIdx) (off : Word) (s : State),
    Completes (exec (.jmpr a) s) (ControlEffect (s.reg a) s) ∧
    Completes (exec (.jmp off) s) (ControlEffect (trunc16 (u s.pc + 1 + sgn off)) s)

/-- JSRR and JSR put pc + 1 in R7, set the flags from it, and go to the old register or the immediate target. From
45_jump_call.md JSRR and JSR; 92_eei_decisions.md D6 (log 9); 92_eei_decisions.md D11 (log 17); 92_eei_decisions.md
D12 (log 18). -/
def Obligations.CallsLinkAndGoToTheirTarget : Prop :=
  ∀ (a : RegIdx) (imm : BitVec 11) (s : State),
    Completes (exec (.jsrr a) s) (CallEffect config (s.reg a) s) ∧
    Completes (exec (.jsr imm) s)
      (CallEffect config (trunc16 ((if 0x8000 ≤ u s.pc then 0x8000 else 0) + 16 * (imm.toNat : Int))) s) ∧
    ∀ c : Config,
      Completes (execJsrrWith c a s) (CallEffect c (s.reg a) s) ∧
      Completes (execJsrWith c imm s)
        (CallEffect c (trunc16 ((if 0x8000 ≤ u s.pc then 0x8000 else 0) + 16 * (imm.toNat : Int))) s)

/-! ## Arithmetic -/

/-- ADD, MUL, SUB and ADDI write the exact result modulo 2^16 and its code, and change nothing else. From
42_arithmetic.md ADD, MUL, SUB, ADDI; 40_cycle.md integer arithmetic laws; 92_eei_decisions.md D6, D11 (logs 9, 17).
-/
def Obligations.ArithmeticResultsWrap : Prop :=
  ∀ (d a b : RegIdx) (imm : Word) (s : State),
    Completes (exec (.add d a b) s) (ResultEffect d (trunc16 (u (s.reg a) + u (s.reg b))) s) ∧
    Completes (exec (.mul d a b) s) (ResultEffect d (trunc16 (u (s.reg a) * u (s.reg b))) s) ∧
    Completes (exec (.sub d a b) s) (ResultEffect d (trunc16 (u (s.reg a) - u (s.reg b))) s) ∧
    Completes (exec (.addi d a imm) s) (ResultEffect d (trunc16 (u (s.reg a) + u imm)) s)

/-- DIV writes the unsigned quotient and MOD the unsigned remainder when the divisor is not 0. From 42_arithmetic.md
DIV; 46_shift_mod.md MOD; 40_cycle.md divide and remainder; 92_eei_decisions.md D9 (log 6). -/
def Obligations.DivideAndModuloByANonzeroDivisor : Prop :=
  ∀ (d a b : RegIdx) (s : State), s.reg b ≠ 0 →
    Completes (exec (.div d a b) s) (ResultEffect d (trunc16 (u (s.reg a) / u (s.reg b))) s) ∧
    Completes (exec (.mod d a b) s) (ResultEffect d (trunc16 (u (s.reg a) % u (s.reg b))) s)

/-- DIV and MOD by 0 do not fault: they write the drawn value and its code. From 40_cycle.md division by zero;
92_eei_decisions.md D10 (log 7). -/
def Obligations.DivideAndModuloByZeroWriteTheDraw : Prop :=
  ∀ (d a b : RegIdx) (s : State), s.reg b = 0 →
    Completes (exec (.div d a b) s) (ResultEffect d (Config.div0Draw s.draws) s) ∧
    Completes (exec (.mod d a b) s) (ResultEffect d (Config.div0Draw s.draws) s)

/-- Under divmod_signed DIV rounds toward zero and MOD takes the dividend's sign; under lc4_zero a zero divisor
gives 0. From 40_cycle.md divide and remainder; 00_scope.md parameter table; 92_eei_decisions.md D9, D10 (logs 6,
7). -/
def Obligations.DivideAndModuloUnderOtherParameters : Prop :=
  ∀ (c : Config) (d a b : RegIdx) (s : State),
    (c.divmodSigned = true → s.reg b ≠ 0 →
      Completes (execDivWith c d a b s) (ResultEffect d (trunc16 (Int.tdiv (sgn (s.reg a)) (sgn (s.reg b)))) s) ∧
      Completes (execModWith c d a b s) (ResultEffect d (trunc16 (Int.tmod (sgn (s.reg a)) (sgn (s.reg b)))) s)) ∧
    (c.div0 = .lc4Zero → s.reg b = 0 →
      Completes (execDivWith c d a b s) (ResultEffect d 0 s) ∧
      Completes (execModWith c d a b s) (ResultEffect d 0 s))

/-- The dividend is quotient times divisor plus remainder, and the remainder is below the divisor. From 40_cycle.md
divide and remainder; 92_eei_decisions.md D9 (log 6). -/
def Obligations.QuotientAndRemainderRecomposeTheDividend : Prop :=
  ∀ (d a b : RegIdx) (s : State), s.reg b ≠ 0 →
    Completes (exec (.div d a b) s) fun t => Completes (exec (.mod d a b) s) fun t' =>
      u (s.reg a) = u (t.reg d) * u (s.reg b) + u (t'.reg d) ∧ 0 ≤ u (t'.reg d) ∧ u (t'.reg d) < u (s.reg b)

/-! ## Comparisons -/

/-- CMP, CMPU and CMPI set the code of the exact difference and change nothing else. From 43_compare.md CMP, CMPU,
CMPI; 40_cycle.md comparison on exact integers; 92_eei_decisions.md D7 (log 16). -/
def Obligations.ComparesClassifyTheExactDifference : Prop :=
  ∀ (a b : RegIdx) (imm : BitVec 7) (s : State),
    Completes (exec (.cmp a b) s) (CompareEffect (sgn (s.reg a) - sgn (s.reg b)) s) ∧
    Completes (exec (.cmpu a b) s) (CompareEffect (u (s.reg a) - u (s.reg b)) s) ∧
    Completes (exec (.cmpi a imm) s) (CompareEffect (sgn (s.reg a) - imm.toInt) s)

/-- CMPIU sets one code: the unsigned difference by default, the signed one under cmpiu_final = signed. From
43_compare.md CMPIU; 92_eei_decisions.md D7, D8 (logs 16, 8). -/
def Obligations.CompareUnsignedImmediateUsesItsFinalComputation : Prop :=
  ∀ (a : RegIdx) (uimm : BitVec 7) (s : State),
    Completes (exec (.cmpiu a uimm) s) (CompareEffect (u (s.reg a) - (uimm.toNat : Int)) s) ∧
    (∀ c : Config, c.cmpiuFinal = .signed →
      Completes (execCmpiuWith c a uimm s) (CompareEffect (sgn (s.reg a) - (uimm.toNat : Int)) s)) ∧
    (nzpOf (u (s.reg a) - (uimm.toNat : Int)) ≠ nzpOf (sgn (s.reg a) - (uimm.toNat : Int)) ↔ 0x8000 ≤ u (s.reg a))

/-! ## Logic, shifts and constants -/

/-- AND, OR, XOR, NOT and ANDI write the bitwise result and its code, and change nothing else. From 44_logical.md;
92_eei_decisions.md D6 (log 9). -/
def Obligations.LogicalResultsAreBitwise : Prop :=
  ∀ (d a b : RegIdx) (imm : Word) (s : State),
    Completes (exec (.and d a b) s) (ResultEffect d (s.reg a &&& s.reg b) s) ∧
    Completes (exec (.or d a b) s) (ResultEffect d (s.reg a ||| s.reg b) s) ∧
    Completes (exec (.xor d a b) s) (ResultEffect d (s.reg a ^^^ s.reg b) s) ∧
    Completes (exec (.not d a) s) (ResultEffect d (~~~ s.reg a) s) ∧
    Completes (exec (.andi d a imm) s) (ResultEffect d (s.reg a &&& imm) s)

/-- SLL multiplies by 2^k modulo 2^16, SRL divides u(v) and SRA divides s(v) by 2^k rounding down. From
46_shift_mod.md SLL, SRA, SRL; 00_scope.md bitwise operators; 92_eei_decisions.md D6 (log 9). -/
def Obligations.ShiftsMultiplyAndDivideByPowersOfTwo : Prop :=
  ∀ (d a : RegIdx) (k : BitVec 4) (s : State),
    Completes (exec (.sll d a k) s) (ResultEffect d (trunc16 (u (s.reg a) * 2 ^ k.toNat)) s) ∧
    Completes (exec (.srl d a k) s) (ResultEffect d (trunc16 (u (s.reg a) / 2 ^ k.toNat)) s) ∧
    Completes (exec (.sra d a k) s) (ResultEffect d (trunc16 (sgn (s.reg a) / 2 ^ k.toNat)) s)

/-- A decoded shift's amount is the low four bits of its word, at most 15, and a shift by 0 writes the operand
unchanged. From 40_cycle.md shift amounts; 30_encoding.md SHIFT format; 92_eei_decisions.md D1 (log 13);
92_eei_decisions.md D6 (log 9). -/
def Obligations.ShiftsNeverReachTheWidth : Prop :=
  (∀ (w : Word) (d a : RegIdx) (k : BitVec 4),
    decode w = .sll d a k ∨ decode w = .sra d a k ∨ decode w = .srl d a k →
      k.toNat = w.toNat % 16 ∧ k.toNat ≤ 15) ∧
  ∀ (d a : RegIdx) (s : State),
    Completes (exec (.sll d a 0) s) (ResultEffect d (s.reg a) s) ∧
    Completes (exec (.sra d a 0) s) (ResultEffect d (s.reg a) s) ∧
    Completes (exec (.srl d a 0) s) (ResultEffect d (s.reg a) s)

/-- CONST replaces the register entirely; HICONST replaces its high byte and keeps its low byte. From
47_load_store_const.md CONST and HICONST; 92_eei_decisions.md D6 (log 9). -/
def Obligations.ConstantsReplaceTheRegisterOrItsHighByte : Prop :=
  ∀ (d : RegIdx) (imm : Word) (uimm : BitVec 8) (s : State),
    Completes (exec (.const d imm) s) (ResultEffect d imm s) ∧
    Completes (exec (.hiconst d uimm) s)
      (ResultEffect d (trunc16 (u (s.reg d) % 256 + 256 * (uimm.toNat : Int))) s)

/-- CONST then HICONST compose any value, and STR then LDR at one allowed address give it back. From
47_load_store_const.md HICONST corner cases; 95_test_vectors.md S7. -/
def Obligations.ComposedConstantSurvivesStoreAndLoad : Prop :=
  ∀ (v : Word) (d b r : RegIdx) (off : Word) (s : State), d ≠ b →
    (0x8000 ≤ u s.psr ∨ u (effectiveAddress (s.reg b) off) < 0x8000) →
    Completes (exec (.const d (zext (v.extractLsb' 0 8))) s) fun s1 =>
      Completes (exec (.hiconst d (v.extractLsb' 8 8)) s1) fun s2 =>
        Completes (exec (.str d b off) s2) fun s3 =>
          Completes (exec (.ldr r b off) s3) fun s4 => s4.reg r = v

/-- Opcode 1101 with bit 8 = 0 retires and changes nothing, the pc included. From 47_load_store_const.md HICONST
stall; 90_conflicts.md C7; 92_eei_decisions.md D4 (log 11). -/
def Obligations.StallRetiresWithoutMoving : Prop :=
  ∀ (d : RegIdx) (low : BitVec 8) (s : State),
    Completes (exec (.hiconstStall d low) s) (ControlEffect s.pc s) ∧
    ∀ c : Config, c.hiconst0Policy = .fault →
      execHiconstStallWith c d low s = .fault (.illegalInstruction s.pc (encode (.hiconstStall d low)))

/-- A machine that reaches a stall word repeats it for ever. From 47_load_store_const.md HICONST stall;
70_reset_and_hazards.md end of a run; 92_eei_decisions.md D4 (log 11). -/
def Obligations.StalledMachineNeverMoves : Prop :=
  ∀ (h : Word) (n : Nat) (d : RegIdx) (low : BitVec 8) (s : State), s.pc ≠ h → fetchForbidden s.pc s.psr = none →
    decode (s.mem.readWord s.pc) = .hiconstStall d low →
    (drive h n s).ending = .stepLimit ∧ (drive h n s).state.pc = s.pc ∧ (drive h n s).state.psr = s.psr ∧
    (drive h n s).state.regs = s.regs ∧ (drive h n s).state.mem = s.mem

/-! ## Loads and stores -/

/-- The effective address is base plus signed offset modulo 2^16. From 47_load_store_const.md addressing;
92_eei_decisions.md D14 (log 19). -/
def Obligations.EffectiveAddressWraps : Prop :=
  ∀ base off : Word, u (effectiveAddress base off) = (u base + sgn off) % 65536

/-- In supervisor mode, or below 0x8000, LDR loads the word and sets its code, and changes nothing else. From
47_load_store_const.md LDR; 20_memory.md data permission; 92_eei_decisions.md D6, D14, D17 (logs 9, 19, 23). -/
def Obligations.AllowedLoadsComplete : Prop :=
  ∀ (d a : RegIdx) (off : Word) (s : State),
    (0x8000 ≤ u s.psr ∨ u (effectiveAddress (s.reg a) off) < 0x8000) →
    Completes (exec (.ldr d a off) s)
      (LoadEffect d (effectiveAddress (s.reg a) off) (s.mem.readWord (effectiveAddress (s.reg a) off)) s)

/-- In supervisor mode, or below 0x8000, STR stores the register's word and changes nothing else. From
47_load_store_const.md STR; 20_memory.md data permission; 92_eei_decisions.md D14, D17 (logs 19, 23). -/
def Obligations.AllowedStoresComplete : Prop :=
  ∀ (b a : RegIdx) (off : Word) (s : State),
    (0x8000 ≤ u s.psr ∨ u (effectiveAddress (s.reg a) off) < 0x8000) →
    Completes (exec (.str b a off) s) (StoreEffect (effectiveAddress (s.reg a) off) (s.reg b) s)

/-- A user-mode LDR or STR at 0x8000 or above answers the data-protection fault. From 60_exceptions.md data
protection; 20_memory.md data permission; 92_eei_decisions.md D14, D21 (logs 19, 20). -/
def Obligations.UserAccessAbove7FFFFaults : Prop :=
  ∀ (r a : RegIdx) (off : Word) (s : State), u s.psr < 0x8000 → 0x8000 ≤ u (effectiveAddress (s.reg a) off) →
    exec (.ldr r a off) s = .fault (.dataProtection (effectiveAddress (s.reg a) off) s.pc) ∧
    exec (.str r a off) s = .fault (.dataProtection (effectiveAddress (s.reg a) off) s.pc)

/-- A word read gives the word last written there, and a write changes only that word. From 20_memory.md side
effects and consistency; 92_eei_decisions.md D26 (log 27). -/
def Obligations.ReadAfterWrite : Prop :=
  ∀ (m : Memory) (a b v : Word), (m.writeWord a v).readWord b = if b = a then v else m.readWord b

/-- A store into code is seen by the very next fetch. From 20_memory.md instruction-fetch coherence. -/
def Obligations.StoreIsSeenByTheNextFetch : Prop :=
  ∀ (b a : RegIdx) (off : Word) (s t : State), exec (.str b a off) s = .next t →
    fetchWord t = if t.pc = effectiveAddress (s.reg a) off then s.reg b else s.mem.readWord t.pc

/-- No instruction but LDR and STR depends on memory. From 20_memory.md widths. -/
def Obligations.OnlyLoadsAndStoresTouchMemory : Prop :=
  ∀ (i : Instr) (m : Memory) (s : State), i.family ≠ .load → i.family ≠ .store →
    exec i { s with mem := m } = onNext (fun t => { t with mem := m }) (exec i s)

/-! ## Trap, return and privilege -/

/-- TRAP saves only pc + 1 in R7, sets the privilege bit, sets the code from the link, and goes to 0x8000 + UIMM8.
From 60_exceptions.md trap entry; 48_system.md TRAP; 92_eei_decisions.md D6 (log 9); 92_eei_decisions.md D13 (log
18); 92_eei_decisions.md D22 (log 21). -/
def Obligations.TrapEntersSupervisorMode : Prop :=
  ∀ (vec : BitVec 8) (s : State),
    Completes (exec (.trap vec) s) (TrapEffect config (trunc16 (0x8000 + (vec.toNat : Int))) s) ∧
    ∀ c : Config, Completes (execTrapWith c vec s) (TrapEffect c (trunc16 (0x8000 + (vec.toNat : Int))) s)

/-- RTI takes the pc from R7, clears the privilege bit, and restores nothing else. From 60_exceptions.md trap
return; 48_system.md RTI; 92_eei_decisions.md D22 (log 21). -/
def Obligations.ReturnRestoresOnlyThePc : Prop :=
  ∀ s : State, Completes (exec .rti s) (ReturnEffect s)

/-- A trap followed at once by RTI comes back to pc + 1 in user mode. From 60_exceptions.md trap entry and return.
-/
def Obligations.TrapThenReturnComesBackInUserMode : Prop :=
  ∀ (vec : BitVec 8) (s : State),
    Completes (exec (.trap vec) s) fun t => Completes (exec .rti t) fun r =>
      r.pc = nextPc s ∧ u r.psr < 0x8000 ∧ (∀ x : RegIdx, x ≠ 7 → r.reg x = s.reg x) ∧ SameMemory s r

/-- TRAP sets the privilege bit, RTI clears it, and no other instruction changes it. From 60_exceptions.md privilege
modes; 20_memory.md protection; 48_system.md. -/
def Obligations.OnlyTrapAndReturnChangeTheMode : Prop :=
  ∀ s t : State, step s = .next t →
    ((decode (s.mem.readWord s.pc)).family = .trap → privBit t.psr = 1) ∧
    ((decode (s.mem.readWord s.pc)).family = .returnFromTrap → privBit t.psr = 0) ∧
    ((decode (s.mem.readWord s.pc)).family ≠ .trap → (decode (s.mem.readWord s.pc)).family ≠ .returnFromTrap →
      privBit t.psr = privBit s.psr)

/-- No user-mode step changes a word at 0x8000 or above. From 20_memory.md data permission; 60_exceptions.md
privilege modes. -/
def Obligations.UserStepsKeepProtectedMemory : Prop :=
  ∀ s t : State, u s.psr < 0x8000 → step s = .next t →
    ∀ a : Word, 0x8000 ≤ u a → t.mem.readWord a = s.mem.readWord a

/-- A user-mode step cannot learn anything about the words at 0x8000 and above. From 20_memory.md fetch and data
permission; 60_exceptions.md privilege modes. -/
def Obligations.UserStepsAreBlindToProtectedMemory : Prop :=
  ∀ s s' : State, u s.psr < 0x8000 → AgreeForUser s s' → SameAnswer AgreeForUser (step s) (step s')

/-- Opcodes 0011, 1011 and 1110 are refused, naming the word; under the other policies they fault or stall. From
30_encoding.md unassigned opcodes; 48_system.md unassigned opcodes; 92_eei_decisions.md D3 (log 10). -/
def Obligations.UnassignedOpcodesAreRefused : Prop :=
  ∀ (low : BitVec 12) (s : State),
    exec (.unassigned0011 low) s = .refused (.unassignedOpcode (trunc16 (0x3000 + (low.toNat : Int)))) ∧
    exec (.unassigned1011 low) s = .refused (.unassignedOpcode (trunc16 (0xB000 + (low.toNat : Int)))) ∧
    exec (.unassigned1110 low) s = .refused (.unassignedOpcode (trunc16 (0xE000 + (low.toNat : Int)))) ∧
    ∀ (c : Config) (I : Word),
      (c.unassignedPolicy = .fault → execUnassignedWith c I s = .fault (.illegalInstruction s.pc I)) ∧
      (c.unassignedPolicy = .stall → Completes (execUnassignedWith c I s) (ControlEffect s.pc s))

/-! ## The trace and the host interface -/

/-- Two equal trace lines have the same ten fields. From 60_exceptions.md line format; 92_eei_decisions.md D16 (log
23). -/
def Obligations.TraceLineTellsEveryField : Prop :=
  ∀ r r' : TraceRecord, traceLine r = traceLine r' →
    r.pc = r'.pc ∧ r.word = r'.word ∧ r.snap.regWE = r'.snap.regWE ∧ r.snap.rd = r'.snap.rd ∧
    r.snap.regValue = r'.snap.regValue ∧ r.snap.nzpWE = r'.snap.nzpWE ∧ r.snap.nzpValue = r'.snap.nzpValue ∧
    r.snap.dmemWE = r'.snap.dmemWE ∧ r.snap.dmemAddr = r'.snap.dmemAddr ∧ r.snap.dmemValue = r'.snap.dmemValue

/-- A fault ends the run at once, with the state before the step and no trace line. Rule R303. -/
def Obligations.FaultStopsTheRunWithItsStateAndNoLine : Prop :=
  ∀ (h : Word) (n : Nat) (s : State) (f : Fault), s.pc ≠ h → step s = .fault f →
    drive h (n + 1) s = ⟨.faulted f, s, []⟩

/-- The driver stops at the halt address before stepping. From 70_reset_and_hazards.md driver loop;
92_eei_decisions.md D15 (log 12). -/
def Obligations.HaltAddressIsNeverExecuted : Prop :=
  ∀ (h : Word) (n : Nat) (s : State), s.pc = h → drive h n s = ⟨.halted, s, []⟩

/-- The driver emits one trace record for each step that retires. From 60_exceptions.md emission. -/
def Obligations.OneTraceRecordPerRetiredStep : Prop :=
  ∀ (h : Word) (n : Nat) (s : State),
    (drive h n s).state.draws = s.draws + (drive h n s).trace.length ∧
    ((drive h n s).ending = .stepLimit → (drive h n s).trace.length = n)

/-- A segment that fits is loaded word for word at its address, and one running past 0xFFFF is refused. From
70_reset_and_hazards.md object-file loading; 92_eei_decisions.md D24 (log 24). -/
def Obligations.SegmentLoadsItsWords : Prop :=
  ∀ (h a : Word) (ws : List Word) (m : Memory), isHeader h = true → ws.length < 65536 →
    (a.toNat + ws.length ≤ 65536 →
      ∃ m', loadWords .scan (h :: a :: BitVec.ofNat 16 ws.length :: ws) m = .ok m' ∧
        (∀ k (hk : k < ws.length), m'.readWord (BitVec.ofNat 16 (a.toNat + k)) = ws[k]) ∧
        (∀ b : Word, b.toNat < a.toNat ∨ a.toNat + ws.length ≤ b.toNat → m'.readWord b = m.readWord b)) ∧
    (65536 < a.toNat + ws.length →
      loadWords .scan (h :: a :: BitVec.ofNat 16 ws.length :: ws) m = .error (.loadPastEnd 65536))

/-- Loading changes memory only, and keeps its canonical form. From 70_reset_and_hazards.md boot order;
92_eei_decisions.md D19 (log 24). -/
def Obligations.LoadingChangesOnlyMemory : Prop :=
  ∀ (files : List (List Byte)) (s t : State), loadFiles files s = .next t →
    t = { s with mem := t.mem } ∧ (s.mem.wf = true → t.mem.wf = true)

/-! ## Other parameter values -/

/-- Under any values of the parameters there is a machine: its steps run the decoded instruction under them and keep
the invariant, and the defaults give step. From 00_scope.md parameter table; 40_cycle.md the step;
70_reset_and_hazards.md driver loop; 92_eei_decisions.md D3, D4, D6, D8, D9, D10, D15 (logs 6 to 12). -/
def Obligations.EveryParameterSettingGivesAMachine : Prop :=
  (∀ c : Config,
    (∀ s : State, fetchForbidden s.pc s.psr = none →
      stepWith c s = onNext (retire s.pc (s.mem.readWord s.pc)) (execWith c (decode (s.mem.readWord s.pc)) s)) ∧
    (∀ s : State, fetchForbidden s.pc s.psr ≠ none → stepWith c s = step s) ∧
    (∀ (i : Instr) (s : State), execWith c i s = exec i s ∨
      i.mnemonic ∈ ["DIV", "MOD", "CMPIU", "JSRR", "JSR", "TRAP", "HICONST_STALL",
        "UNASSIGNED_0011", "UNASSIGNED_1011", "UNASSIGNED_1110"]) ∧
    (∀ (d a b : RegIdx) (uimm : BitVec 7) (imm : BitVec 11) (vec low : BitVec 8) (rest : BitVec 12) (s : State),
      execWith c (.div d a b) s = execDivWith c d a b s ∧ execWith c (.mod d a b) s = execModWith c d a b s ∧
      execWith c (.cmpiu a uimm) s = execCmpiuWith c a uimm s ∧ execWith c (.jsrr a) s = execJsrrWith c a s ∧
      execWith c (.jsr imm) s = execJsrWith c imm s ∧ execWith c (.trap vec) s = execTrapWith c vec s ∧
      execWith c (.hiconstStall d low) s = execHiconstStallWith c d low s ∧
      execWith c (.unassigned0011 rest) s = execUnassignedWith c (encode (.unassigned0011 rest)) s ∧
      execWith c (.unassigned1011 rest) s = execUnassignedWith c (encode (.unassigned1011 rest)) s ∧
      execWith c (.unassigned1110 rest) s = execUnassignedWith c (encode (.unassigned1110 rest)) s) ∧
    (∀ s t : State, s.Inv → stepWith c s = .next t → t.Inv) ∧
    (∀ (n : Nat) (s : State), s.pc = c.haltPc → driveWith c n s = ⟨.halted, s, []⟩)) ∧
  (∀ (i : Instr) (s : State), execWith config i s = exec i s) ∧
  (∀ s : State, stepWith config s = step s) ∧
  ∀ (n : Nat) (s : State), driveWith config n s = drive 0x80FF n s
end

