-- ==== Sys2Proof/Laws/Bits.lean ====
section
/-! SUPPORT. The psr's fields after a field is replaced, the code of a result, and sign extension of a field. -/

namespace Sys2Proof.Machine

@[simp] theorem nzp_withNzp (psr : Word) (c : BitVec 3) : nzp (withNzp psr c) = c := by
  unfold nzp withNzp field
  apply BitVec.eq_of_getLsbD_eq
  intro i h
  simp only [BitVec.getLsbD_extractLsb', BitVec.getLsbD_append]
  interval_cases i <;> simp

@[simp] theorem psrReserved_withNzp (psr : Word) (c : BitVec 3) : psrReserved (withNzp psr c) = psrReserved psr := by
  unfold psrReserved withNzp field
  apply BitVec.eq_of_getLsbD_eq
  intro i h
  simp only [BitVec.getLsbD_extractLsb', BitVec.getLsbD_append]
  interval_cases i <;> simp

@[simp] theorem privBit_withNzp (psr : Word) (c : BitVec 3) : privBit (withNzp psr c) = privBit psr := by
  unfold privBit withNzp field
  apply BitVec.eq_of_getLsbD_eq
  intro i h
  simp only [BitVec.getLsbD_extractLsb', BitVec.getLsbD_append]
  interval_cases i <;> simp

@[simp] theorem nzp_withPriv (psr : Word) (b : BitVec 1) : nzp (withPriv psr b) = nzp psr := by
  unfold nzp withPriv field
  apply BitVec.eq_of_getLsbD_eq
  intro i h
  simp only [BitVec.getLsbD_extractLsb', BitVec.getLsbD_append]
  interval_cases i <;> simp

@[simp] theorem psrReserved_withPriv (psr : Word) (b : BitVec 1) : psrReserved (withPriv psr b) = psrReserved psr := by
  unfold psrReserved withPriv field
  apply BitVec.eq_of_getLsbD_eq
  intro i h
  simp only [BitVec.getLsbD_extractLsb', BitVec.getLsbD_append]
  interval_cases i <;> simp

@[simp] theorem privBit_withPriv (psr : Word) (b : BitVec 1) : privBit (withPriv psr b) = b := by
  unfold privBit withPriv field
  apply BitVec.eq_of_getLsbD_eq
  intro i h
  simp only [BitVec.getLsbD_extractLsb', BitVec.getLsbD_append]
  interval_cases i <;> simp

/-- The last code written is the one that stands (R30). -/
@[simp] theorem withNzp_withNzp (psr : Word) (c c' : BitVec 3) : withNzp (withNzp psr c) c' = withNzp psr c' := by
  unfold withNzp field
  apply BitVec.eq_of_getLsbD_eq
  intro i h
  simp only [BitVec.getLsbD_extractLsb', BitVec.getLsbD_append]
  interval_cases i <;> simp

@[simp] theorem withNzp_nzp (psr : Word) : withNzp psr (nzp psr) = psr := by
  unfold withNzp nzp field
  apply BitVec.eq_of_getLsbD_eq
  intro i h
  simp only [BitVec.getLsbD_extractLsb', BitVec.getLsbD_append]
  interval_cases i <;> simp

theorem withPriv_withNzp (psr : Word) (c : BitVec 3) (b : BitVec 1) : withPriv (withNzp psr c) b = withNzp (withPriv psr b) c := by
  unfold withPriv withNzp field
  apply BitVec.eq_of_getLsbD_eq
  intro i h
  simp only [BitVec.getLsbD_extractLsb', BitVec.getLsbD_append]
  interval_cases i <;> simp

/-- The spec's test `u(psr) < 0x8000` is bit 15 = 0 (R29). -/
theorem userMode_eq (psr : Word) : userMode psr = (privBit psr == 0) := by
  unfold userMode privBit field
  have h := psr.isLt
  rw [Bool.eq_iff_iff, decide_eq_true_iff, beq_iff_eq, ← BitVec.toNat_inj]
  simp [BitVec.extractLsb'_toNat, Nat.shiftRight_eq_div_pow]
  omega

@[simp] theorem userMode_withNzp (psr : Word) (c : BitVec 3) : userMode (withNzp psr c) = userMode psr := by
  simp [userMode_eq]

/-- The code of a result is one of the three (R30). -/
theorem nzpOf_cases (z : Int) : nzpOf z = 0b001 ∨ nzpOf z = 0b010 ∨ nzpOf z = 0b100 := by
  unfold nzpOf; split
  · exact .inl rfl
  · split
    · exact .inr (.inl rfl)
    · exact .inr (.inr rfl)

end Sys2Proof.Machine

namespace Sys2Proof

/-- A field taken from the low bits is the truncation. -/
theorem field_zero (v : Word) (n : Nat) : field v 0 n = v.setWidth n := by
  unfold field
  apply BitVec.eq_of_getLsbD_eq
  intro i h
  simp

/-- A pattern in the range of an n-bit signed field is its own low bits sign-extended (R85). -/
theorem sext_field_of_fitsSigned {n : Nat} (hn : 0 < n) (hn16 : n ≤ 16) (v : Word) (h : fitsSigned n v = true) :
    sext (field v 0 n) = v := by
  simp only [fitsSigned, decide_eq_true_eq] at h
  apply BitVec.eq_of_toInt_eq
  obtain ⟨k, rfl⟩ : ∃ k, n = k + 1 := ⟨n - 1, by omega⟩
  rw [field_zero, sext, BitVec.toInt_signExtend_of_le hn16, BitVec.toInt_setWidth]
  have hv : (v.toNat : Int).bmod (2 ^ (k + 1)) = v.toInt.bmod (2 ^ (k + 1)) := by
    rw [BitVec.toInt_eq_toNat_bmod]
    exact (Int.bmod_bmod_of_dvd (by exact_mod_cast Nat.pow_dvd_pow 2 hn16)).symm
  rw [hv]
  simp only [Nat.add_sub_cancel] at h
  apply Int.bmod_eq_of_le <;> (push_cast; omega)

/-- A sign-extended field lies in the field's range (R85). -/
theorem fitsSigned_sext {n : Nat} (hn : 0 < n) (hn16 : n ≤ 16) (v : BitVec n) : fitsSigned n (sext v) = true := by
  have hs : (sext v).toInt = v.toInt := BitVec.toInt_signExtend_of_le hn16
  simp only [fitsSigned, decide_eq_true_eq, hs]
  exact ⟨BitVec.le_toInt v, BitVec.toInt_lt⟩

/-- Sign extension keeps the low bits. -/
theorem field_sext {n : Nat} (hn16 : n ≤ 16) (v : BitVec n) : field (sext v) 0 n = v := by
  rw [field_zero, sext]
  apply BitVec.eq_of_getLsbD_eq
  intro i h
  simp [BitVec.getLsbD_signExtend, h]
  omega

end Sys2Proof
end

