-- ==== Sys2Proof/Laws/Memory.lean ====
section
/-! SUPPORT. The memory: a read after a write, and that a write keeps the canonical form, in which equal memories are
equal lists. -/

namespace Sys2Proof.Machine

@[simp] theorem Memory.readByte_nil (a : Nat) : Memory.readByte [] a = Memory.unlisted := rfl

theorem Memory.readByte_cons (c : Host.Cell) (m : Memory) (a : Nat) :
    Memory.readByte (c :: m) a = if a = c.1 then c.2 else Memory.readByte m a := rfl

/-- A cell that is not listed from `lo` on reads as unlisted. -/
theorem Memory.readByte_of_lt {lo a : Nat} {m : Memory} (h : Memory.wfFrom lo m = true) (ha : a < lo) :
    Memory.readByte m a = Memory.unlisted := by
  induction m generalizing lo with
  | nil => rfl
  | cons c m ih =>
    simp only [Memory.wfFrom, Bool.and_eq_true, decide_eq_true_eq] at h
    rw [Memory.readByte_cons, if_neg (by omega)]
    exact ih h.2 (by omega)

theorem Memory.wfFrom_mono {lo lo' : Nat} {m : Memory} (h : Memory.wfFrom lo m = true) (hl : lo' ≤ lo) :
    Memory.wfFrom lo' m = true := by
  cases m with
  | nil => rfl
  | cons c m =>
    simp only [Memory.wfFrom, Bool.and_eq_true, decide_eq_true_eq] at h ⊢
    exact ⟨⟨⟨by omega, h.1.1.2⟩, h.1.2⟩, h.2⟩

/-- Erasing a cell keeps the canonical form. -/
theorem Memory.wfFrom_erase {lo : Nat} (a : Nat) {m : Memory} (h : Memory.wfFrom lo m = true) :
    Memory.wfFrom lo (Memory.erase a m) = true := by
  induction m generalizing lo with
  | nil => rfl
  | cons c m ih =>
    simp only [Memory.wfFrom, Bool.and_eq_true, decide_eq_true_eq] at h
    unfold Memory.erase
    split
    · exact Memory.wfFrom_mono (ih h.2) (by omega)
    · simp only [Memory.wfFrom, Bool.and_eq_true, decide_eq_true_eq]
      exact ⟨h.1, ih h.2⟩

/-- Inserting a cell that is not listed keeps the canonical form. -/
theorem Memory.wfFrom_insert {lo a : Nat} {b : Byte} {m : Memory} (hlo : lo ≤ a) (ha : a < Memory.size)
    (hb : b ≠ Memory.unlisted) (hne : ∀ c ∈ m, c.1 ≠ a) (h : Memory.wfFrom lo m = true) :
    Memory.wfFrom lo (Memory.insert a b m) = true := by
  induction m generalizing lo with
  | nil => simp [Memory.insert, Memory.wfFrom, hlo, ha, hb]
  | cons c m ih =>
    have hc := hne c (List.mem_cons_self ..)
    simp only [Memory.wfFrom, Bool.and_eq_true, decide_eq_true_eq] at h
    unfold Memory.insert
    split
    · simp only [Memory.wfFrom, Bool.and_eq_true, decide_eq_true_eq]
      exact ⟨⟨⟨hlo, ha⟩, hb⟩, ⟨⟨by omega, h.1.1.2⟩, h.1.2⟩, h.2⟩
    · simp only [Memory.wfFrom, Bool.and_eq_true, decide_eq_true_eq]
      exact ⟨h.1, ih (by omega) (fun c' hc' => hne c' (List.mem_cons_of_mem _ hc')) h.2⟩

/-- An erased cell is not listed. -/
theorem Memory.mem_erase {a : Nat} {c : Host.Cell} {m : Memory} (h : c ∈ Memory.erase a m) : c.1 ≠ a := by
  induction m with
  | nil => simp [Memory.erase] at h
  | cons d m ih =>
    unfold Memory.erase at h
    split at h
    · exact ih h
    · rcases List.mem_cons.1 h with rfl | h
      · assumption
      · exact ih h

/-- A cell write keeps the canonical form. -/
theorem Memory.wf_writeByte {a : Nat} (b : Byte) {m : Memory} (ha : a < Memory.size) (h : m.wf = true) :
    (m.writeByte a b).wf = true := by
  unfold Memory.writeByte
  split
  · exact Memory.wfFrom_erase a h
  · rename_i hb
    exact Memory.wfFrom_insert (Nat.zero_le _) ha hb (fun _ hc => Memory.mem_erase hc) (Memory.wfFrom_erase a h)

theorem Memory.lowCell_lt (a : Word) : Memory.lowCell a < Memory.size := by
  have := a.isLt; simp only [Memory.lowCell, Memory.size]; omega

theorem Memory.highCell_lt (a : Word) : Memory.highCell a < Memory.size := by
  have := a.isLt; simp only [Memory.highCell, Memory.size]; omega

/-- A word write keeps the canonical form. -/
theorem Memory.wf_writeWord (m : Memory) (a v : Word) (h : m.wf = true) : (m.writeWord a v).wf = true :=
  Memory.wf_writeByte _ (Memory.highCell_lt a) (Memory.wf_writeByte _ (Memory.lowCell_lt a) h)

/-- Reset memory is in canonical form. -/
theorem Memory.wf_reset : State.reset.mem.wf = true := rfl

/-! ## A read after a write, in every memory -/

theorem Memory.readByte_erase (a k : Nat) (m : Memory) :
    (Memory.erase a m).readByte k = if k = a then Memory.unlisted else m.readByte k := by
  induction m with
  | nil => simp [Memory.erase]
  | cons c m ih =>
    unfold Memory.erase
    by_cases hc : c.1 = a
    · rw [if_pos hc, ih, Memory.readByte_cons]
      by_cases hk : k = a
      · rw [if_pos hk, if_pos hk]
      · rw [if_neg hk, if_neg hk, if_neg (by omega)]
    · rw [if_neg hc, Memory.readByte_cons, Memory.readByte_cons, ih]
      by_cases hk : k = c.1
      · rw [if_pos hk, if_neg (by omega), if_pos hk]
      · rw [if_neg hk, if_neg hk]

theorem Memory.readByte_insert {a k : Nat} {b : Byte} {m : Memory} (hne : ∀ c ∈ m, c.1 ≠ a) :
    (Memory.insert a b m).readByte k = if k = a then b else m.readByte k := by
  induction m with
  | nil => rfl
  | cons c m ih =>
    have hc := hne c (List.mem_cons_self ..)
    unfold Memory.insert
    split
    · rw [Memory.readByte_cons]
    · rw [Memory.readByte_cons, Memory.readByte_cons, ih (fun c' hc' => hne c' (List.mem_cons_of_mem _ hc'))]
      by_cases hk : k = c.1
      · rw [if_pos hk, if_neg (by omega), if_pos hk]
      · rw [if_neg hk, if_neg hk]

/-- A byte read after a byte write: the written byte at its cell, the old byte elsewhere. -/
theorem Memory.readByte_writeByte (m : Memory) (a k : Nat) (b : Byte) :
    (m.writeByte a b).readByte k = if k = a then b else m.readByte k := by
  unfold Memory.writeByte
  split
  · rename_i hb
    rw [Memory.readByte_erase, hb]
  · rw [Memory.readByte_insert (fun _ hc => Memory.mem_erase hc), Memory.readByte_erase]
    split <;> rfl

/-- Every byte outside a written word's two cells reads as before. -/
theorem Memory.readByte_writeWord_of_ne (m : Memory) (a v : Word) {k : Nat} (hl : k ≠ Memory.lowCell a)
    (hh : k ≠ Memory.highCell a) : (m.writeWord a v).readByte k = m.readByte k := by
  rw [Memory.writeWord, Memory.readByte_writeByte, if_neg hh, Memory.readByte_writeByte, if_neg hl]

/-- Two words' cells do not overlap. -/
theorem Memory.cells_ne {a b : Word} (h : a ≠ b) :
    Memory.lowCell a ≠ Memory.lowCell b ∧ Memory.lowCell a ≠ Memory.highCell b ∧
    Memory.highCell a ≠ Memory.lowCell b ∧ Memory.highCell a ≠ Memory.highCell b := by
  have : a.toNat ≠ b.toNat := fun hh => h (BitVec.eq_of_toNat_eq hh)
  simp only [Memory.lowCell, Memory.highCell]
  omega

/-! ## Equal memories are equal lists -/

/-- Two memories in canonical form that read the same at every cell are one list. -/
theorem Memory.ext_of_wf {lo : Nat} {m m' : Memory} (h : Memory.wfFrom lo m = true) (h' : Memory.wfFrom lo m' = true)
    (hr : ∀ k, m.readByte k = m'.readByte k) : m = m' := by
  induction m generalizing lo m' with
  | nil =>
    cases m' with
    | nil => rfl
    | cons c' m' =>
      simp only [Memory.wfFrom, Bool.and_eq_true, decide_eq_true_eq] at h'
      have := hr c'.1
      rw [Memory.readByte_cons, if_pos rfl] at this
      exact absurd this.symm h'.1.2
  | cons c m ih =>
    simp only [Memory.wfFrom, Bool.and_eq_true, decide_eq_true_eq] at h
    cases m' with
    | nil =>
      have := hr c.1
      rw [Memory.readByte_cons, if_pos rfl] at this
      exact absurd this h.1.2
    | cons c' m' =>
      simp only [Memory.wfFrom, Bool.and_eq_true, decide_eq_true_eq] at h'
      have key : c.1 = c'.1 := by
        rcases Nat.lt_trichotomy c.1 c'.1 with hlt | heq | hgt
        · have := hr c.1
          rw [Memory.readByte_cons, if_pos rfl, Memory.readByte_cons, if_neg (by omega),
            Memory.readByte_of_lt h'.2 (by omega)] at this
          exact absurd this h.1.2
        · exact heq
        · have := hr c'.1
          rw [Memory.readByte_cons, if_neg (by omega), Memory.readByte_of_lt h.2 (by omega),
            Memory.readByte_cons, if_pos rfl] at this
          exact absurd this.symm h'.1.2
      have hv : c.2 = c'.2 := by
        have := hr c.1
        rwa [Memory.readByte_cons, if_pos rfl, Memory.readByte_cons, if_pos key] at this
      have ht : m = m' := by
        refine ih h.2 (key ▸ h'.2) fun k => ?_
        have hk := hr k
        rw [Memory.readByte_cons, Memory.readByte_cons, ← key] at hk
        by_cases hkc : k = c.1
        · rw [Memory.readByte_of_lt h.2 (by omega), Memory.readByte_of_lt h'.2 (by omega)]
        · rwa [if_neg hkc, if_neg hkc] at hk
      rw [Prod.ext key hv, ht]

end Sys2Proof.Machine
end

