-- ==== Sys2Proof/Laws/Numbers.lean ====
section
/-! SUPPORT. The spec's integer arithmetic (R10) against the machine's bit vectors: what `trunc16` of a sum, a difference,
a product, a quotient or a shift is. -/

namespace Sys2Proof.Machine

theorem u_nonneg (v : Word) : 0 ≤ u v := Int.natCast_nonneg _

theorem u_lt (v : Word) : u v < 65536 := by
  have := v.isLt
  simp only [u]
  omega

/-- `s(v)` in terms of `u(v)`. -/
theorem sgn_eq (v : Word) : sgn v = if u v < 0x8000 then u v else u v - 65536 := by
  have := v.isLt
  have hu : u v = v.toNat := rfl
  rw [sgn, BitVec.toInt_eq_toNat_cond]
  split <;> split <;> omega

theorem u_trunc16 (z : Int) : u (trunc16 z) = z % 65536 := by
  simp only [u, trunc16, BitVec.toNat_ofInt]
  omega

theorem trunc16_u (v : Word) : trunc16 (u v) = v := by simp [trunc16, u]

theorem trunc16_sgn (v : Word) : trunc16 (sgn v) = v := by simp [trunc16, sgn]

/-- Two integers equal modulo 2^16 give one pattern. -/
theorem trunc16_congr {x y : Int} (h : x % 65536 = y % 65536) : trunc16 x = trunc16 y := by
  apply BitVec.eq_of_toNat_eq
  simp only [trunc16, BitVec.toNat_ofInt]
  exact congrArg Int.toNat h

theorem eq_of_u_eq {v w : Word} (h : u v = u w) : v = w :=
  BitVec.eq_of_toNat_eq (Int.ofNat.inj h)

theorem trunc16_add (a b : Word) : trunc16 (u a + u b) = a + b := by
  apply eq_of_u_eq
  rw [u_trunc16]
  simp only [u, BitVec.toNat_add]
  omega

theorem trunc16_sub (a b : Word) : trunc16 (u a - u b) = a - b := by
  apply eq_of_u_eq
  rw [u_trunc16]
  have := a.isLt
  have := b.isLt
  simp only [u, BitVec.toNat_sub]
  omega

theorem trunc16_mul (a b : Word) : trunc16 (u a * u b) = a * b := by
  apply eq_of_u_eq
  rw [u_trunc16]
  simp only [u, BitVec.toNat_mul]
  push_cast
  rfl

theorem trunc16_add_sgn (a b : Word) : trunc16 (u a + sgn b) = a + b := by
  rw [← trunc16_add]
  apply trunc16_congr
  rw [sgn_eq]
  split <;> omega

/-- The sequential pc (R110). -/
theorem nextPc_eq (s : State) : nextPc s = s.pc + 1 := trunc16_add s.pc 1

/-- A relative target (R131, R202). -/
theorem trunc16_relative (s : State) (off : Word) : trunc16 (u s.pc + 1 + sgn off) = relativeTarget s off := by
  rw [relativeTarget, State.pcNext, ← trunc16_add_sgn, ← trunc16_add]
  apply trunc16_congr
  rw [u_trunc16]
  have : u (1 : Word) = 1 := rfl
  omega

theorem branchPc_eq (taken : Bool) (off : Word) (s : State) :
    branchPc taken off s = if taken then relativeTarget s off else s.pc + 1 := by
  rw [branchPc, trunc16_relative, nextPc_eq]

end Sys2Proof.Machine
end

