-- ==== Sys2Proof/Laws/State.lean ====
section
/-! SUPPORT. One lemma per field of State and per update, true by rfl, so that no later proof unfolds a record update. -/

namespace Sys2Proof.Machine

variable (s : State)

/-! ## clearSnap -/

@[simp] theorem clearSnap_pc : (clearSnap s).pc = s.pc := rfl
@[simp] theorem clearSnap_regs : (clearSnap s).regs = s.regs := rfl
@[simp] theorem clearSnap_psr : (clearSnap s).psr = s.psr := rfl
@[simp] theorem clearSnap_mem : (clearSnap s).mem = s.mem := rfl
@[simp] theorem clearSnap_snap : (clearSnap s).snap = Snapshot.cleared := rfl
@[simp] theorem clearSnap_retired : (clearSnap s).retired = s.retired := rfl
@[simp] theorem clearSnap_draws : (clearSnap s).draws = s.draws := rfl
@[simp] theorem clearSnap_reg (r : RegIdx) : (clearSnap s).reg r = s.reg r := rfl

/-! ## setPc -/

@[simp] theorem setPc_pc (v : Word) : (setPc v s).pc = v := rfl
@[simp] theorem setPc_regs (v : Word) : (setPc v s).regs = s.regs := rfl
@[simp] theorem setPc_psr (v : Word) : (setPc v s).psr = s.psr := rfl
@[simp] theorem setPc_mem (v : Word) : (setPc v s).mem = s.mem := rfl
@[simp] theorem setPc_snap (v : Word) : (setPc v s).snap = s.snap := rfl
@[simp] theorem setPc_retired (v : Word) : (setPc v s).retired = s.retired := rfl
@[simp] theorem setPc_draws (v : Word) : (setPc v s).draws = s.draws := rfl
@[simp] theorem setPc_reg (v : Word) (r : RegIdx) : (setPc v s).reg r = s.reg r := rfl

/-! ## advancePc -/

@[simp] theorem advancePc_pc : (advancePc s).pc = s.pc + 1 := rfl
@[simp] theorem advancePc_regs : (advancePc s).regs = s.regs := rfl
@[simp] theorem advancePc_psr : (advancePc s).psr = s.psr := rfl
@[simp] theorem advancePc_mem : (advancePc s).mem = s.mem := rfl
@[simp] theorem advancePc_snap : (advancePc s).snap = s.snap := rfl
@[simp] theorem advancePc_retired : (advancePc s).retired = s.retired := rfl
@[simp] theorem advancePc_draws : (advancePc s).draws = s.draws := rfl
@[simp] theorem advancePc_reg (r : RegIdx) : (advancePc s).reg r = s.reg r := rfl

/-! ## writeReg -/

@[simp] theorem writeReg_pc (d : RegIdx) (v : Word) : (writeReg d v s).pc = s.pc := rfl
@[simp] theorem writeReg_psr (d : RegIdx) (v : Word) : (writeReg d v s).psr = s.psr := rfl
@[simp] theorem writeReg_mem (d : RegIdx) (v : Word) : (writeReg d v s).mem = s.mem := rfl
@[simp] theorem writeReg_snap (d : RegIdx) (v : Word) : (writeReg d v s).snap = { s.snap with regWE := true, rd := d, regValue := v } := rfl
@[simp] theorem writeReg_retired (d : RegIdx) (v : Word) : (writeReg d v s).retired = s.retired := rfl
@[simp] theorem writeReg_draws (d : RegIdx) (v : Word) : (writeReg d v s).draws = s.draws := rfl

/-! ## setCode -/

@[simp] theorem setCode_pc (c : BitVec 3) : (setCode c s).pc = s.pc := rfl
@[simp] theorem setCode_regs (c : BitVec 3) : (setCode c s).regs = s.regs := rfl
@[simp] theorem setCode_psr (c : BitVec 3) : (setCode c s).psr = withNzp s.psr c := rfl
@[simp] theorem setCode_mem (c : BitVec 3) : (setCode c s).mem = s.mem := rfl
@[simp] theorem setCode_snap (c : BitVec 3) : (setCode c s).snap = { s.snap with nzpWE := true, nzpValue := c } := rfl
@[simp] theorem setCode_retired (c : BitVec 3) : (setCode c s).retired = s.retired := rfl
@[simp] theorem setCode_draws (c : BitVec 3) : (setCode c s).draws = s.draws := rfl
@[simp] theorem setCode_reg (c : BitVec 3) (r : RegIdx) : (setCode c s).reg r = s.reg r := rfl

/-! ## setNzp -/

@[simp] theorem setNzp_pc (v : Word) : (setNzp v s).pc = s.pc := rfl
@[simp] theorem setNzp_regs (v : Word) : (setNzp v s).regs = s.regs := rfl
@[simp] theorem setNzp_psr (v : Word) : (setNzp v s).psr = withNzp s.psr (nzpOf v.toInt) := rfl
@[simp] theorem setNzp_mem (v : Word) : (setNzp v s).mem = s.mem := rfl
@[simp] theorem setNzp_snap (v : Word) : (setNzp v s).snap = { s.snap with nzpWE := true, nzpValue := nzpOf v.toInt } := rfl
@[simp] theorem setNzp_retired (v : Word) : (setNzp v s).retired = s.retired := rfl
@[simp] theorem setNzp_draws (v : Word) : (setNzp v s).draws = s.draws := rfl
@[simp] theorem setNzp_reg (v : Word) (r : RegIdx) : (setNzp v s).reg r = s.reg r := rfl

/-! ## setNzpCmp -/

@[simp] theorem setNzpCmp_pc (z : Int) : (setNzpCmp z s).pc = s.pc := rfl
@[simp] theorem setNzpCmp_regs (z : Int) : (setNzpCmp z s).regs = s.regs := rfl
@[simp] theorem setNzpCmp_psr (z : Int) : (setNzpCmp z s).psr = withNzp s.psr (nzpOf z) := rfl
@[simp] theorem setNzpCmp_mem (z : Int) : (setNzpCmp z s).mem = s.mem := rfl
@[simp] theorem setNzpCmp_snap (z : Int) : (setNzpCmp z s).snap = { s.snap with nzpWE := true, nzpValue := nzpOf z } := rfl
@[simp] theorem setNzpCmp_retired (z : Int) : (setNzpCmp z s).retired = s.retired := rfl
@[simp] theorem setNzpCmp_draws (z : Int) : (setNzpCmp z s).draws = s.draws := rfl
@[simp] theorem setNzpCmp_reg (z : Int) (r : RegIdx) : (setNzpCmp z s).reg r = s.reg r := rfl

/-! ## setPriv -/

@[simp] theorem setPriv_pc (b : BitVec 1) : (setPriv b s).pc = s.pc := rfl
@[simp] theorem setPriv_regs (b : BitVec 1) : (setPriv b s).regs = s.regs := rfl
@[simp] theorem setPriv_psr (b : BitVec 1) : (setPriv b s).psr = withPriv s.psr b := rfl
@[simp] theorem setPriv_mem (b : BitVec 1) : (setPriv b s).mem = s.mem := rfl
@[simp] theorem setPriv_snap (b : BitVec 1) : (setPriv b s).snap = s.snap := rfl
@[simp] theorem setPriv_retired (b : BitVec 1) : (setPriv b s).retired = s.retired := rfl
@[simp] theorem setPriv_draws (b : BitVec 1) : (setPriv b s).draws = s.draws := rfl
@[simp] theorem setPriv_reg (b : BitVec 1) (r : RegIdx) : (setPriv b s).reg r = s.reg r := rfl

/-! ## recordData -/

@[simp] theorem recordData_pc (we : Bool) (a v : Word) : (recordData we a v s).pc = s.pc := rfl
@[simp] theorem recordData_regs (we : Bool) (a v : Word) : (recordData we a v s).regs = s.regs := rfl
@[simp] theorem recordData_psr (we : Bool) (a v : Word) : (recordData we a v s).psr = s.psr := rfl
@[simp] theorem recordData_mem (we : Bool) (a v : Word) : (recordData we a v s).mem = s.mem := rfl
@[simp] theorem recordData_snap (we : Bool) (a v : Word) : (recordData we a v s).snap = { s.snap with dmemWE := we, dmemAddr := a, dmemValue := v } := rfl
@[simp] theorem recordData_retired (we : Bool) (a v : Word) : (recordData we a v s).retired = s.retired := rfl
@[simp] theorem recordData_draws (we : Bool) (a v : Word) : (recordData we a v s).draws = s.draws := rfl
@[simp] theorem recordData_reg (we : Bool) (a v : Word) (r : RegIdx) : (recordData we a v s).reg r = s.reg r := rfl

/-! ## storeWord -/

@[simp] theorem storeWord_pc (a v : Word) : (storeWord a v s).pc = s.pc := rfl
@[simp] theorem storeWord_regs (a v : Word) : (storeWord a v s).regs = s.regs := rfl
@[simp] theorem storeWord_psr (a v : Word) : (storeWord a v s).psr = s.psr := rfl
@[simp] theorem storeWord_mem (a v : Word) : (storeWord a v s).mem = s.mem.writeWord a v := rfl
@[simp] theorem storeWord_snap (a v : Word) : (storeWord a v s).snap = { s.snap with dmemWE := true, dmemAddr := a, dmemValue := v } := rfl
@[simp] theorem storeWord_retired (a v : Word) : (storeWord a v s).retired = s.retired := rfl
@[simp] theorem storeWord_draws (a v : Word) : (storeWord a v s).draws = s.draws := rfl
@[simp] theorem storeWord_reg (a v : Word) (r : RegIdx) : (storeWord a v s).reg r = s.reg r := rfl

/-! ## retire -/

@[simp] theorem retire_pc (a w : Word) : (retire a w s).pc = s.pc := rfl
@[simp] theorem retire_regs (a w : Word) : (retire a w s).regs = s.regs := rfl
@[simp] theorem retire_psr (a w : Word) : (retire a w s).psr = s.psr := rfl
@[simp] theorem retire_mem (a w : Word) : (retire a w s).mem = s.mem := rfl
@[simp] theorem retire_snap (a w : Word) : (retire a w s).snap = { s.snap with rsIdx := Config.rsIdxDraw s.draws, rtIdx := Config.rtIdxDraw s.draws } := rfl
@[simp] theorem retire_retired (a w : Word) : (retire a w s).retired = some ⟨a, w⟩ := rfl
@[simp] theorem retire_draws (a w : Word) : (retire a w s).draws = s.draws + 1 := rfl
@[simp] theorem retire_reg (a w : Word) (r : RegIdx) : (retire a w s).reg r = s.reg r := rfl

/-! ## Registers -/

/-- A register write and a read: the value at its own index, the old value elsewhere (R109). -/
@[simp] theorem writeReg_reg (d : RegIdx) (v : Word) (r : RegIdx) :
    (writeReg d v s).reg r = if r = d then v else s.reg r := by
  unfold State.reg writeReg
  simp only [Vector.getElem_set]
  by_cases h : d = r
  · subst h; simp
  · have : d.toNat ≠ r.toNat := fun hh => h (BitVec.eq_of_toNat_eq hh)
    simp [this, Ne.symm h]

theorem State.reg_def (r : RegIdx) : s.reg r = s.regs[r.toNat]'(by have := r.isLt; omega) := rfl

theorem State.pcNext_def : s.pcNext = s.pc + 1 := rfl

/-! ## The link -/

@[simp] theorem link_pc (c : Config) : (link c s).pc = s.pc := by unfold link; split <;> rfl
@[simp] theorem link_mem (c : Config) : (link c s).mem = s.mem := by unfold link; split <;> rfl
@[simp] theorem link_retired (c : Config) : (link c s).retired = s.retired := by unfold link; split <;> rfl
@[simp] theorem link_draws (c : Config) : (link c s).draws = s.draws := by unfold link; split <;> rfl
@[simp] theorem link_reg (c : Config) (r : RegIdx) : (link c s).reg r = if r = 7 then s.pc + 1 else s.reg r := by
  unfold link; split <;> simp [State.pcNext]
theorem link_psr (c : Config) :
    (link c s).psr = if c.linkWritesNzp then withNzp s.psr (nzpOf (s.pc + 1).toInt) else s.psr := by
  unfold link; split <;> rfl
theorem link_snap (c : Config) : (link c s).snap =
    if c.linkWritesNzp then
      { s.snap with regWE := true, rd := 7, regValue := s.pc + 1, nzpWE := true, nzpValue := nzpOf (s.pc + 1).toInt }
    else { s.snap with regWE := true, rd := 7, regValue := s.pc + 1 } := by
  unfold link; split <;> rfl

/-! ## Answers -/

@[simp] theorem onNext_next (f : State → State) : onNext f (.next s) = .next (f s) := rfl
@[simp] theorem onNext_fault (f : State → State) (r : Fault) : onNext f (.fault r) = .fault r := rfl
@[simp] theorem onNext_refused (f : State → State) (r : Refusal) : onNext f (.refused r) = .refused r := rfl

/-- Everything onNext can do. -/
theorem onNext_eq_next {f : State → State} {a : Answer} {t : State} :
    onNext f a = .next t ↔ ∃ t', a = .next t' ∧ f t' = t := by
  cases a <;> simp [onNext]

theorem onNext_eq_fault {f : State → State} {a : Answer} {r : Fault} : onNext f a = .fault r ↔ a = .fault r := by
  cases a <;> simp [onNext]

theorem onNext_eq_refused {f : State → State} {a : Answer} {r : Refusal} :
    onNext f a = .refused r ↔ a = .refused r := by
  cases a <;> simp [onNext]

/-- Everything the data check can do (R240). -/
theorem guardData_allowed {ea : Word} {k : Answer} (h : dataAllowed ea s.psr = true) : guardData ea s k = k := by
  simp [guardData, h]

theorem guardData_forbidden {ea : Word} {k : Answer} (h : dataAllowed ea s.psr = false) :
    guardData ea s k = .fault (.dataProtection ea s.pc) := by
  simp [guardData, h]

end Sys2Proof.Machine
end

