-- ==== Sys2Proof/Laws/Ops.lean ====
section
/-! SUPPORT. One lemma per shared operation that says everything it does: its next state and what it leaves unchanged. -/

namespace Sys2Proof.Machine

variable (s : State)

/-- A result write (R106, R109, R110). -/
theorem writeResult_effect (d : RegIdx) (v : Word) : Completes (writeResult d v s) (ResultEffect d v s) := by
  refine ⟨_, rfl, ?_⟩
  constructor
  · constructor
    · simp
    · intro r h; simp [h]
    · simp
  · constructor <;> simp [sgn]
  · constructor <;> simp
  · intro k; simp
  · simp [NoDataRecord, Snapshot.cleared]
  · simp [nextPc_eq]
  · simp [BooksKept]

/-- A comparison (R106, R110). -/
theorem compareResult_effect (z : Int) : Completes (compareResult z s) (CompareEffect z s) := by
  refine ⟨_, rfl, ?_⟩
  constructor
  · constructor <;> simp [Snapshot.cleared]
  · constructor <;> simp
  · constructor <;> simp
  · intro k; simp
  · simp [NoDataRecord, Snapshot.cleared]
  · simp [nextPc_eq]
  · simp [BooksKept]

/-- A jump (R110). -/
theorem jumpTo_effect (v : Word) : Completes (jumpTo v s) (ControlEffect v s) := by
  refine ⟨_, rfl, ?_⟩
  constructor
  · constructor <;> simp [Snapshot.cleared]
  · constructor <;> simp [Snapshot.cleared]
  · constructor <;> simp
  · intro k; simp
  · simp [NoDataRecord, Snapshot.cleared]
  · simp
  · simp [BooksKept]

/-- Going on with nothing written (R130). -/
theorem continueOnly_effect : Completes (continueOnly s) (ControlEffect (nextPc s) s) := by
  rw [nextPc_eq]; exact jumpTo_effect s (s.pc + 1)

/-- The stall (R247). -/
theorem stall_effect : Completes (stall s) (ControlEffect s.pc s) := jumpTo_effect s s.pc

/-- A call (R204, R206). -/
theorem callTo_effect (c : Config) (v : Word) : Completes (callTo c v s) (CallEffect c v s) := by
  refine ⟨_, rfl, ?_⟩
  constructor
  · constructor
    · simp [nextPc_eq]
    · intro r h; rw [setPc_reg, link_reg, if_neg h, clearSnap_reg]
    · simp only [setPc_snap, link_snap]; split <;> simp [nextPc_eq]
  · unfold LinkCode; split
    · rename_i h; constructor <;> simp [link_psr, link_snap, h, nextPc_eq, sgn]
    · rename_i h; constructor <;> simp [link_psr, link_snap, h, Snapshot.cleared]
  · constructor <;> simp only [setPc_psr, link_psr] <;> split <;> simp
  · intro k; simp
  · simp only [NoDataRecord, setPc_snap, link_snap]; split <;> simp [Snapshot.cleared]
  · simp
  · simp [BooksKept]

/-- Trap entry (R306). -/
theorem takeTrap_effect (c : Config) (vec : BitVec 8) : TrapEffect c (trapTarget vec) s (takeTrap c vec s) := by
  unfold takeTrap
  constructor
  · constructor
    · simp [nextPc_eq]
    · intro r h; rw [setPc_reg, setPriv_reg, link_reg, if_neg h, clearSnap_reg]
    · simp only [setPc_snap, setPriv_snap, link_snap]; split <;> simp [nextPc_eq]
  · unfold LinkCode; split
    · rename_i h; constructor <;> simp [link_psr, link_snap, h, nextPc_eq, sgn]
    · rename_i h; constructor <;> simp [link_psr, link_snap, h, Snapshot.cleared]
  · simp
  · simp only [setPc_psr, setPriv_psr, psrReserved_withPriv, link_psr]; split <;> simp
  · intro k; simp
  · simp only [NoDataRecord, setPc_snap, setPriv_snap, link_snap]; split <;> simp [Snapshot.cleared]
  · simp
  · simp [BooksKept]

/-- Trap return (R308). -/
theorem returnFromTrap_effect : ReturnEffect s (returnFromTrap s) := by
  unfold returnFromTrap
  constructor
  · constructor <;> simp [Snapshot.cleared]
  · constructor <;> simp [Snapshot.cleared]
  · simp
  · simp
  · intro k; simp
  · simp [NoDataRecord, Snapshot.cleared]
  · simp
  · simp [BooksKept]

/-- A load that the data check allows (R241). -/
theorem loadFrom_effect (d : RegIdx) (ea : Word) :
    Completes (loadFrom d ea s) (LoadEffect d ea (s.mem.readWord ea) s) := by
  refine ⟨_, rfl, ?_⟩
  constructor
  · constructor
    · simp
    · intro r h; simp [h]
    · simp
  · constructor <;> simp [sgn]
  · constructor <;> simp
  · intro k; simp
  · simp [Snapshot.cleared]
  · simp [nextPc_eq]
  · simp [BooksKept]

/-- The data check in the spec's integers (R58). -/
theorem dataAllowed_iff (ea psr : Word) : dataAllowed ea psr = true ↔ 0x8000 ≤ u psr ∨ u ea < 0x8000 := by
  simp only [dataAllowed, cond1Holds, userMode, u, Bool.not_eq_true', Bool.and_eq_false_iff, decide_eq_false_iff_not]
  omega

theorem cond1Holds_iff (a psr : Word) : cond1Holds a psr = true ↔ u psr < 0x8000 ∧ 0x8000 ≤ u a := by
  simp only [cond1Holds, userMode, u, Bool.and_eq_true, decide_eq_true_eq]
  omega

theorem cond2Holds_iff (pc : Word) : cond2Holds pc = true ↔ 0x2000 ≤ u pc ∧ u pc < 0x8000 := by
  simp only [cond2Holds, u, decide_eq_true_eq]
  omega

theorem cond3Holds_iff (pc : Word) : cond3Holds pc = true ↔ 0xA000 ≤ u pc ∧ u pc ≤ 0xFFFF := by
  simp only [cond3Holds, u, decide_eq_true_eq]
  omega

/-- The fetch is allowed exactly when none of the three conditions holds (R57). -/
theorem fetchForbidden_eq_none (pc psr : Word) : fetchForbidden pc psr = none ↔
    ¬ (u psr < 0x8000 ∧ 0x8000 ≤ u pc) ∧ ¬ (0x2000 ≤ u pc ∧ u pc < 0x8000) ∧ ¬ (0xA000 ≤ u pc ∧ u pc ≤ 0xFFFF) := by
  rw [← cond1Holds_iff, ← cond2Holds_iff, ← cond3Holds_iff]
  unfold fetchForbidden
  cases cond1Holds pc psr <;> cases cond2Holds pc <;> cases cond3Holds pc <;> decide

variable (run : Instr → State → Answer)

/-- Everything a step can do (R100, R101): stop on the fetch check, or run the decoded word. -/
theorem stepBy_cases : (∃ c, fetchForbidden s.pc s.psr = some c ∧ stepBy run s = .fault (.fetchProtection s.pc c)) ∨
    (fetchForbidden s.pc s.psr = none ∧
      stepBy run s = onNext (retire s.pc (fetchWord s)) (run (decode (fetchWord s)) s)) := by
  unfold stepBy
  split
  · rename_i c h; exact .inl ⟨c, h, rfl⟩
  · rename_i h; exact .inr ⟨h, rfl⟩

/-- The same of the machine's step. -/
theorem step_cases : (∃ c, fetchForbidden s.pc s.psr = some c ∧ step s = .fault (.fetchProtection s.pc c)) ∨
    (fetchForbidden s.pc s.psr = none ∧ step s = onNext (retire s.pc (fetchWord s)) (exec (decode (fetchWord s)) s)) :=
  stepBy_cases s exec

/-- The same of a step under any parameters. -/
theorem stepWith_cases (c : Config) :
    (∃ f, fetchForbidden s.pc s.psr = some f ∧ stepWith c s = .fault (.fetchProtection s.pc f)) ∨
    (fetchForbidden s.pc s.psr = none ∧
      stepWith c s = onNext (retire s.pc (fetchWord s)) (execWith c (decode (fetchWord s)) s)) :=
  stepBy_cases s (execWith c)

variable {s run}

/-- A step that answers a next state ran an instruction and recorded it (R320). -/
theorem stepBy_eq_next {t : State} (h : stepBy run s = .next t) : fetchForbidden s.pc s.psr = none ∧
    ∃ t', run (decode (fetchWord s)) s = .next t' ∧ retire s.pc (fetchWord s) t' = t := by
  rcases stepBy_cases s run with ⟨c, -, hc⟩ | ⟨hn, hs⟩
  · rw [hc] at h; cases h
  · rw [hs] at h; exact ⟨hn, onNext_eq_next.1 h⟩

theorem step_eq_next {t : State} (h : step s = .next t) : fetchForbidden s.pc s.psr = none ∧
    ∃ t', exec (decode (fetchWord s)) s = .next t' ∧ retire s.pc (fetchWord s) t' = t :=
  stepBy_eq_next h

theorem stepWith_eq_next {c : Config} {t : State} (h : stepWith c s = .next t) : fetchForbidden s.pc s.psr = none ∧
    ∃ t', execWith c (decode (fetchWord s)) s = .next t' ∧ retire s.pc (fetchWord s) t' = t :=
  stepBy_eq_next h

/-! ## The driver, one turn at a time (R356) -/

theorem driveBy_zero (run : State → Answer) (h : Word) (s : State) :
    driveBy run h 0 s = ⟨if s.pc = h then .halted else .stepLimit, s, []⟩ := rfl

theorem driveBy_of_halt (run : State → Answer) {h : Word} {s : State} (n : Nat) (hp : s.pc = h) :
    driveBy run h n s = ⟨.halted, s, []⟩ := by
  cases n <;> simp [driveBy, hp]

theorem driveBy_of_next {run : State → Answer} {h : Word} {s t : State} (n : Nat) (hp : s.pc ≠ h)
    (ht : run s = .next t) :
    driveBy run h (n + 1) s =
      ⟨(driveBy run h n t).ending, (driveBy run h n t).state, t.traceRecord.toList ++ (driveBy run h n t).trace⟩ := by
  rw [driveBy, if_neg hp, ht]

theorem driveBy_of_fault {run : State → Answer} {h : Word} {s : State} {r : Fault} (n : Nat) (hp : s.pc ≠ h)
    (ht : run s = .fault r) : driveBy run h (n + 1) s = ⟨.faulted r, s, []⟩ := by
  rw [driveBy, if_neg hp, ht]

theorem driveBy_of_refused {run : State → Answer} {h : Word} {s : State} {r : Refusal} (n : Nat) (hp : s.pc ≠ h)
    (ht : run s = .refused r) : driveBy run h (n + 1) s = ⟨.refused r, s, []⟩ := by
  rw [driveBy, if_neg hp, ht]

end Sys2Proof.Machine
end

