-- ==== Sys2Proof/Laws/Exec.lean ====
section
/-! SUPPORT. What execWith and exec can do, said once: every instruction's answer is one of the shared operations', with the families
that use it. Whole-machine claims go by cases on this. -/

namespace Sys2Proof.Machine

/-- The shapes an answer has under the parameters `c`, each with the families it comes from (R102, R8). -/
inductive ExecCase (c : Config) (i : Instr) (s : State) (r : Answer) : Prop where
  | result (d : RegIdx) (v : Word)
      (hf : i.family ∈ [Family.arithmetic, .logical, .shiftModulo, .constLow, .constHigh])
      (hr : r = writeResult d v s)
  | compare (z : Int) (hf : i.family = .compare) (hr : r = compareResult z s)
  | control (target : Word) (hf : i.family ∈ [Family.branch, .jump, .constHigh]) (hr : r = jumpTo target s)
  | call (target : Word) (hf : i.family = .call) (hr : r = callTo c target s)
  | trap (vec : BitVec 8) (hf : i.family = .trap) (hr : r = .next (takeTrap c vec s))
  | ret (hf : i.family = .returnFromTrap) (hr : r = .next (returnFromTrap s))
  | load (d a : RegIdx) (off : Word) (hi : i = .ldr d a off)
      (hr : r = guardData (effectiveAddress (s.reg a) off) s (loadFrom d (effectiveAddress (s.reg a) off) s))
  | store (b a : RegIdx) (off : Word) (hi : i = .str b a off)
      (hr : r = guardData (effectiveAddress (s.reg a) off) s (storeTo (effectiveAddress (s.reg a) off) (s.reg b) s))
  | unassigned (hf : i.family = .unassigned) (hp : c.unassignedPolicy = .refuse)
      (hr : r = .refused (.unassignedOpcode (encode i)))
  | stalled (hf : i.family = .unassigned) (hp : c.unassignedPolicy = .stall) (hr : r = stall s)
  | illegal (hf : i.family = .unassigned ∧ c.unassignedPolicy = .fault ∨
        i.family = .constHigh ∧ c.hiconst0Policy = .fault)
      (hr : r = illegal (encode i) s)

theorem branch_case (c : Config) {i : Instr} (s : State) (mask : BitVec 3) (off : Word) (hf : i.family = .branch) :
    ExecCase c i s (branch mask off s) := by
  unfold branch
  split
  · exact .control _ (by simp [hf]) rfl
  · exact .control (s.pc + 1) (by simp [hf]) rfl

theorem unassigned_case (c : Config) {i : Instr} (s : State) (hf : i.family = .unassigned) :
    ExecCase c i s (execUnassignedWith c (encode i) s) := by
  unfold execUnassignedWith
  split
  · exact .unassigned hf ‹_› rfl
  · exact .illegal (.inl ⟨hf, ‹_›⟩) rfl
  · exact .stalled hf ‹_› rfl

/-- Every answer of execWith has one of the shapes. -/
theorem execWith_case (c : Config) (i : Instr) (s : State) : ExecCase c i s (execWith c i s) := by
  cases i with
  | nop off => exact .control (s.pc + 1) (by simp [Instr.family]) rfl
  | brp off => exact branch_case c s _ off rfl
  | brz off => exact branch_case c s _ off rfl
  | brzp off => exact branch_case c s _ off rfl
  | brn off => exact branch_case c s _ off rfl
  | brnp off => exact branch_case c s _ off rfl
  | brnz off => exact branch_case c s _ off rfl
  | brnzp off => exact branch_case c s _ off rfl
  | add d a b => exact .result _ _ (by simp [Instr.family]) rfl
  | mul d a b => exact .result _ _ (by simp [Instr.family]) rfl
  | sub d a b => exact .result _ _ (by simp [Instr.family]) rfl
  | div d a b => exact .result _ _ (by simp [Instr.family]) rfl
  | addi d a imm => exact .result _ _ (by simp [Instr.family]) rfl
  | cmp a b => exact .compare _ rfl rfl
  | cmpu a b => exact .compare _ rfl rfl
  | cmpi a imm => exact .compare _ rfl rfl
  | cmpiu a uimm => exact .compare _ rfl rfl
  | jsrr a => exact .call _ rfl rfl
  | jsr imm => exact .call _ rfl rfl
  | and d a b => exact .result _ _ (by simp [Instr.family]) rfl
  | not d a => exact .result _ _ (by simp [Instr.family]) rfl
  | or d a b => exact .result _ _ (by simp [Instr.family]) rfl
  | xor d a b => exact .result _ _ (by simp [Instr.family]) rfl
  | andi d a imm => exact .result _ _ (by simp [Instr.family]) rfl
  | ldr d a off => exact .load d a off rfl rfl
  | str b a off => exact .store b a off rfl rfl
  | rti => exact .ret rfl rfl
  | const d imm => exact .result _ _ (by simp [Instr.family]) rfl
  | sll d a k => exact .result _ _ (by simp [Instr.family]) rfl
  | sra d a k => exact .result _ _ (by simp [Instr.family]) rfl
  | srl d a k => exact .result _ _ (by simp [Instr.family]) rfl
  | mod d a b => exact .result _ _ (by simp [Instr.family]) rfl
  | jmpr a => exact .control _ (by simp [Instr.family]) rfl
  | jmp off => exact .control _ (by simp [Instr.family]) rfl
  | hiconst d uimm => exact .result _ _ (by simp [Instr.family]) rfl
  | hiconstStall d low =>
    show ExecCase c _ s (execHiconstStallWith c d low s)
    unfold execHiconstStallWith
    split
    · exact .control s.pc (by simp [Instr.family]) rfl
    · exact .illegal (.inr ⟨rfl, ‹_›⟩) rfl
  | trap vec => exact .trap vec rfl rfl
  | unassigned0011 low => exact unassigned_case c s rfl
  | unassigned1011 low => exact unassigned_case c s rfl
  | unassigned1110 low => exact unassigned_case c s rfl

/-- The machine's own exec is the one under the defaults. -/
theorem execWith_config (i : Instr) (s : State) : execWith config i s = exec i s := by
  cases i <;> rfl

theorem stepWith_config (s : State) : stepWith config s = step s := by
  unfold stepWith step stepBy
  simp only [execWith_config]

/-- Every answer of exec has one of the shapes. -/
theorem exec_case (i : Instr) (s : State) : ExecCase config i s (exec i s) :=
  execWith_config i s ▸ execWith_case config i s

/-- What a next state is, under the parameters `c`: one of the shared effects (R102). -/
inductive NextCase (c : Config) (i : Instr) (s t : State) : Prop where
  | result (d : RegIdx) (v : Word)
      (hf : i.family ∈ [Family.arithmetic, .logical, .shiftModulo, .constLow, .constHigh])
      (he : ResultEffect d v s t) (hm : t.mem = s.mem)
  | compare (z : Int) (hf : i.family = .compare) (he : CompareEffect z s t) (hm : t.mem = s.mem)
  | control (target : Word) (hf : i.family ∈ [Family.branch, .jump, .constHigh, .unassigned])
      (he : ControlEffect target s t) (hm : t.mem = s.mem)
  | call (target : Word) (hf : i.family = .call) (he : CallEffect c target s t) (hm : t.mem = s.mem)
  | trap (vec : BitVec 8) (hf : i.family = .trap) (he : TrapEffect c (trapTarget vec) s t) (hm : t.mem = s.mem)
  | ret (hf : i.family = .returnFromTrap) (he : ReturnEffect s t) (hm : t.mem = s.mem)
  | load (d a : RegIdx) (off : Word) (hi : i = .ldr d a off)
      (ha : dataAllowed (effectiveAddress (s.reg a) off) s.psr = true)
      (he : LoadEffect d (effectiveAddress (s.reg a) off) (s.mem.readWord (effectiveAddress (s.reg a) off)) s t)
      (hm : t.mem = s.mem)
  | store (b a : RegIdx) (off : Word) (hi : i = .str b a off)
      (ha : dataAllowed (effectiveAddress (s.reg a) off) s.psr = true)
      (ht : t = advancePc (storeWord (effectiveAddress (s.reg a) off) (s.reg b) (clearSnap s)))

theorem effect_of_completes {r : Answer} {P : State → Prop} {t : State} (h : Completes r P) (ht : r = .next t) : P t := by
  obtain ⟨t', h', hp⟩ := h
  rw [h'] at ht
  exact Host.Outcome.next.inj ht ▸ hp

/-- If an instruction answers a next state, it is one of these. -/
theorem execWith_next_case {c : Config} {i : Instr} {s t : State} (h : execWith c i s = .next t) :
    NextCase c i s t := by
  cases execWith_case c i s with
  | result d v hf hr =>
    rw [hr] at h
    exact .result d v hf (effect_of_completes (writeResult_effect s d v) h) (by cases h; simp)
  | compare z hf hr =>
    rw [hr] at h
    exact .compare z hf (effect_of_completes (compareResult_effect s z) h) (by cases h; simp)
  | control target hf hr =>
    rw [hr] at h
    exact .control target (by simp only [List.mem_cons] at hf ⊢; tauto) (effect_of_completes (jumpTo_effect s target) h) (by cases h; simp)
  | call target hf hr =>
    rw [hr] at h
    exact .call target hf (effect_of_completes (callTo_effect s c target) h) (by cases h; simp)
  | trap vec hf hr =>
    rw [hr] at h
    cases h
    exact .trap vec hf (takeTrap_effect s c vec) (by simp [takeTrap])
  | ret hf hr =>
    rw [hr] at h
    cases h
    exact .ret hf (returnFromTrap_effect s) (by simp [returnFromTrap])
  | load d a off hi hr =>
    rw [hr] at h
    by_cases ha : dataAllowed (effectiveAddress (s.reg a) off) s.psr = true
    · rw [guardData_allowed s ha] at h
      exact .load d a off hi ha (effect_of_completes (loadFrom_effect s d _) h) (by cases h; simp)
    · rw [guardData_forbidden s (Bool.eq_false_iff.2 ha)] at h
      cases h
  | store b a off hi hr =>
    rw [hr] at h
    by_cases ha : dataAllowed (effectiveAddress (s.reg a) off) s.psr = true
    · rw [guardData_allowed s ha] at h
      cases h
      exact .store b a off hi ha rfl
    · rw [guardData_forbidden s (Bool.eq_false_iff.2 ha)] at h
      cases h
  | unassigned hf hp hr =>
    rw [hr] at h
    cases h
  | stalled hf hp hr =>
    rw [hr] at h
    exact .control s.pc (by simp [hf]) (effect_of_completes (stall_effect s) h) (by cases h; rfl)
  | illegal hf hr =>
    rw [hr] at h
    cases h

theorem exec_next_case {i : Instr} {s t : State} (h : exec i s = .next t) : NextCase config i s t :=
  execWith_next_case ((execWith_config i s).trans h)

/-! ## What a next state keeps, whatever the instruction -/

/-- What holds between a state and its next state for every instruction (R105, R112, R323, R324). -/
structure Changes (i : Instr) (s t : State) : Prop where
  /-- One register, named in the snapshot, or none. -/
  reg : (t.snap.regWE = true ∧ t.snap.regValue = t.reg t.snap.rd ∧ ∀ r, r ≠ t.snap.rd → t.reg r = s.reg r) ∨
    NoRegister s t
  /-- A code of some exact value, or the old code. -/
  code : (t.snap.nzpWE = true ∧ t.snap.nzpValue = nzp t.psr ∧ ∃ z, nzp t.psr = nzpOf z) ∨ CodeKept s t
  reserved : psrReserved t.psr = psrReserved s.psr
  /-- The mode. -/
  priv : (i.family = .trap ∧ privBit t.psr = 1) ∨ (i.family = .returnFromTrap ∧ privBit t.psr = 0) ∨
    (i.family ≠ .trap ∧ i.family ≠ .returnFromTrap ∧ privBit t.psr = privBit s.psr)
  /-- One allowed word of memory by STR, or none. -/
  mem : (∃ b a off, i = .str b a off ∧ dataAllowed (effectiveAddress (s.reg a) off) s.psr = true ∧
      t.mem = s.mem.writeWord (effectiveAddress (s.reg a) off) (s.reg b) ∧ t.snap.dmemWE = true ∧
      t.snap.dmemAddr = effectiveAddress (s.reg a) off ∧ t.snap.dmemValue = s.reg b) ∨
    (t.mem = s.mem ∧ i.family ≠ .store ∧ t.snap.dmemWE = false ∧
      ((i.family = .load ∧ t.snap.dmemValue = t.mem.readWord t.snap.dmemAddr) ∨ (i.family ≠ .load ∧ NoDataRecord t)))
  /-- The link. -/
  link : i.family = .call ∨ i.family = .trap → t.snap.regWE = true ∧ t.snap.rd = 7 ∧ t.snap.regValue = nextPc s
  rest : BooksKept s t

theorem OneRegister.recorded {d : RegIdx} {v : Word} {s t : State} (h : OneRegister d v s t) :
    t.snap.regWE = true ∧ t.snap.regValue = t.reg t.snap.rd ∧ ∀ r, r ≠ t.snap.rd → t.reg r = s.reg r :=
  ⟨h.snap.1, by rw [h.snap.2.1, h.snap.2.2, h.value], fun r hr => h.others r (by rwa [h.snap.2.1] at hr)⟩

theorem CodeSet.recorded {z : Int} {t : State} (h : CodeSet (nzpOf z) t) :
    t.snap.nzpWE = true ∧ t.snap.nzpValue = nzp t.psr ∧ ∃ z, nzp t.psr = nzpOf z :=
  ⟨h.snap.1, by rw [h.snap.2, h.code], z, h.code⟩

theorem LinkCode.recorded {c : Config} {s t : State} (h : LinkCode c s t) :
    (t.snap.nzpWE = true ∧ t.snap.nzpValue = nzp t.psr ∧ ∃ z, nzp t.psr = nzpOf z) ∨ CodeKept s t := by
  unfold LinkCode at h
  split at h
  · exact .inl (CodeSet.recorded h)
  · exact .inr h

theorem family_of_result {i : Instr}
    (h : i.family ∈ [Family.arithmetic, .logical, .shiftModulo, .constLow, .constHigh]) :
    i.family ≠ .load ∧ i.family ≠ .store ∧ i.family ≠ .call ∧ i.family ≠ .trap ∧ i.family ≠ .returnFromTrap := by
  revert h
  cases i.family <;> decide

theorem family_of_control {i : Instr} (h : i.family ∈ [Family.branch, .jump, .constHigh, .unassigned]) :
    i.family ≠ .load ∧ i.family ≠ .store ∧ i.family ≠ .call ∧ i.family ≠ .trap ∧ i.family ≠ .returnFromTrap := by
  revert h
  cases i.family <;> decide

theorem execWith_changes {c : Config} {i : Instr} {s t : State} (h : execWith c i s = .next t) : Changes i s t := by
  cases execWith_next_case h with
  | result d v hf he hm =>
    have := family_of_result hf
    exact ⟨.inl he.reg.recorded, .inl he.code.recorded, he.psr.reserved, .inr (.inr ⟨by tauto, by tauto, he.psr.priv⟩),
      .inr ⟨hm, by tauto, he.data.1, .inr ⟨by tauto, he.data⟩⟩, by tauto, he.rest⟩
  | compare z hf he hm =>
    exact ⟨.inr he.reg, .inl he.code.recorded, he.psr.reserved,
      .inr (.inr ⟨by simp [hf], by simp [hf], he.psr.priv⟩),
      .inr ⟨hm, by simp [hf], he.data.1, .inr ⟨by simp [hf], he.data⟩⟩, by simp [hf], he.rest⟩
  | control target hf he hm =>
    have := family_of_control hf
    exact ⟨.inr he.reg, .inr he.code, he.psr.reserved, .inr (.inr ⟨by tauto, by tauto, he.psr.priv⟩),
      .inr ⟨hm, by tauto, he.data.1, .inr ⟨by tauto, he.data⟩⟩, by tauto, he.rest⟩
  | call target hf he hm =>
    exact ⟨.inl he.reg.recorded, he.code.recorded, he.psr.reserved,
      .inr (.inr ⟨by simp [hf], by simp [hf], he.psr.priv⟩),
      .inr ⟨hm, by simp [hf], he.data.1, .inr ⟨by simp [hf], he.data⟩⟩, fun _ => he.reg.snap, he.rest⟩
  | trap vec hf he hm =>
    exact ⟨.inl he.reg.recorded, he.code.recorded, he.reserved, .inl ⟨hf, he.priv⟩,
      .inr ⟨hm, by simp [hf], he.data.1, .inr ⟨by simp [hf], he.data⟩⟩, fun _ => he.reg.snap, he.rest⟩
  | ret hf he hm =>
    exact ⟨.inr he.reg, .inr he.code, he.reserved, .inr (.inl ⟨hf, he.priv⟩),
      .inr ⟨hm, by simp [hf], he.data.1, .inr ⟨by simp [hf], he.data⟩⟩, by simp [hf], he.rest⟩
  | load d a off hi ha he hm =>
    subst hi
    exact ⟨.inl he.reg.recorded, .inl he.code.recorded, he.psr.reserved,
      .inr (.inr ⟨by simp [Instr.family], by simp [Instr.family], he.psr.priv⟩),
      .inr ⟨hm, by simp [Instr.family], he.data.1, .inl ⟨rfl, by rw [he.data.2.1, he.data.2.2, hm]⟩⟩,
      by simp [Instr.family], he.rest⟩
  | store b a off hi ha ht =>
    subst hi
    subst ht
    exact ⟨.inr ⟨by simp, by simp [Snapshot.cleared]⟩, .inr ⟨by simp, by simp [Snapshot.cleared]⟩, by simp,
      .inr (.inr ⟨by simp [Instr.family], by simp [Instr.family], by simp⟩),
      .inl ⟨b, a, off, rfl, ha, by simp, by simp, by simp, by simp⟩, by simp [Instr.family], by simp [BooksKept]⟩

theorem exec_changes {i : Instr} {s t : State} (h : exec i s = .next t) : Changes i s t :=
  execWith_changes ((execWith_config i s).trans h)

end Sys2Proof.Machine
end

