-- ==== Sys2Proof/Laws/PerInstr.lean ====
section
/-! SUPPORT. For every instruction: its word lies in the row of the opcode table that bears its mnemonic (R71). -/

namespace Sys2Proof.Laws.EncodesInRow

/-- The word of the instruction has the fixed bits of the row with its mnemonic. -/
def Statement (i : Instr) : Prop :=
  ∃ row ∈ opcodeTable, row.mnemonic = i.mnemonic ∧ row.holds (encode i) = true

/-- A word has a row's fixed bits when it has them bit by bit. -/
theorem holds_of_bits {r : OpcodeRow} {w : Word}
    (h : ∀ k < 16, (w.getLsbD k && r.mask.getLsbD k) = r.pattern.getLsbD k) : r.holds w = true := by
  rw [OpcodeRow.holds, beq_iff_eq]
  apply BitVec.eq_of_getLsbD_eq
  intro k hk
  rw [BitVec.getLsbD_and]
  exact h k hk

theorem nop (off : Word) : Statement (.nop off) := by
  refine ⟨⟨"NOP", 0x0000, 0xFE00⟩, by decide, rfl, holds_of_bits fun k hk => ?_⟩
  simp only [encode, encodeBr, BitVec.getLsbD_append]
  interval_cases k <;> simp

theorem brp (off : Word) : Statement (.brp off) := by
  refine ⟨⟨"BRp", 0x0200, 0xFE00⟩, by decide, rfl, holds_of_bits fun k hk => ?_⟩
  simp only [encode, encodeBr, BitVec.getLsbD_append]
  interval_cases k <;> simp

theorem brz (off : Word) : Statement (.brz off) := by
  refine ⟨⟨"BRz", 0x0400, 0xFE00⟩, by decide, rfl, holds_of_bits fun k hk => ?_⟩
  simp only [encode, encodeBr, BitVec.getLsbD_append]
  interval_cases k <;> simp

theorem brzp (off : Word) : Statement (.brzp off) := by
  refine ⟨⟨"BRzp", 0x0600, 0xFE00⟩, by decide, rfl, holds_of_bits fun k hk => ?_⟩
  simp only [encode, encodeBr, BitVec.getLsbD_append]
  interval_cases k <;> simp

theorem brn (off : Word) : Statement (.brn off) := by
  refine ⟨⟨"BRn", 0x0800, 0xFE00⟩, by decide, rfl, holds_of_bits fun k hk => ?_⟩
  simp only [encode, encodeBr, BitVec.getLsbD_append]
  interval_cases k <;> simp

theorem brnp (off : Word) : Statement (.brnp off) := by
  refine ⟨⟨"BRnp", 0x0A00, 0xFE00⟩, by decide, rfl, holds_of_bits fun k hk => ?_⟩
  simp only [encode, encodeBr, BitVec.getLsbD_append]
  interval_cases k <;> simp

theorem brnz (off : Word) : Statement (.brnz off) := by
  refine ⟨⟨"BRnz", 0x0C00, 0xFE00⟩, by decide, rfl, holds_of_bits fun k hk => ?_⟩
  simp only [encode, encodeBr, BitVec.getLsbD_append]
  interval_cases k <;> simp

theorem brnzp (off : Word) : Statement (.brnzp off) := by
  refine ⟨⟨"BRnzp", 0x0E00, 0xFE00⟩, by decide, rfl, holds_of_bits fun k hk => ?_⟩
  simp only [encode, encodeBr, BitVec.getLsbD_append]
  interval_cases k <;> simp

theorem add (rd : RegIdx) (rs : RegIdx) (rt : RegIdx) : Statement (.add rd rs rt) := by
  refine ⟨⟨"ADD", 0x1000, 0xF038⟩, by decide, rfl, holds_of_bits fun k hk => ?_⟩
  simp only [encode, encodeRRR, BitVec.getLsbD_append]
  interval_cases k <;> simp

theorem mul (rd : RegIdx) (rs : RegIdx) (rt : RegIdx) : Statement (.mul rd rs rt) := by
  refine ⟨⟨"MUL", 0x1008, 0xF038⟩, by decide, rfl, holds_of_bits fun k hk => ?_⟩
  simp only [encode, encodeRRR, BitVec.getLsbD_append]
  interval_cases k <;> simp

theorem sub (rd : RegIdx) (rs : RegIdx) (rt : RegIdx) : Statement (.sub rd rs rt) := by
  refine ⟨⟨"SUB", 0x1010, 0xF038⟩, by decide, rfl, holds_of_bits fun k hk => ?_⟩
  simp only [encode, encodeRRR, BitVec.getLsbD_append]
  interval_cases k <;> simp

theorem div (rd : RegIdx) (rs : RegIdx) (rt : RegIdx) : Statement (.div rd rs rt) := by
  refine ⟨⟨"DIV", 0x1018, 0xF038⟩, by decide, rfl, holds_of_bits fun k hk => ?_⟩
  simp only [encode, encodeRRR, BitVec.getLsbD_append]
  interval_cases k <;> simp

theorem addi (rd : RegIdx) (rs : RegIdx) (imm : Word) : Statement (.addi rd rs imm) := by
  refine ⟨⟨"ADDI", 0x1020, 0xF020⟩, by decide, rfl, holds_of_bits fun k hk => ?_⟩
  simp only [encode, encodeRRI5, BitVec.getLsbD_append]
  interval_cases k <;> simp

theorem cmp (rs : RegIdx) (rt : RegIdx) : Statement (.cmp rs rt) := by
  refine ⟨⟨"CMP", 0x2000, 0xF180⟩, by decide, rfl, holds_of_bits fun k hk => ?_⟩
  simp only [encode, BitVec.getLsbD_append]
  interval_cases k <;> simp

theorem cmpu (rs : RegIdx) (rt : RegIdx) : Statement (.cmpu rs rt) := by
  refine ⟨⟨"CMPU", 0x2080, 0xF180⟩, by decide, rfl, holds_of_bits fun k hk => ?_⟩
  simp only [encode, BitVec.getLsbD_append]
  interval_cases k <;> simp

theorem cmpi (rs : RegIdx) (imm : BitVec 7) : Statement (.cmpi rs imm) := by
  refine ⟨⟨"CMPI", 0x2100, 0xF180⟩, by decide, rfl, holds_of_bits fun k hk => ?_⟩
  simp only [encode, BitVec.getLsbD_append]
  interval_cases k <;> simp

theorem cmpiu (rs : RegIdx) (uimm : BitVec 7) : Statement (.cmpiu rs uimm) := by
  refine ⟨⟨"CMPIU", 0x2180, 0xF180⟩, by decide, rfl, holds_of_bits fun k hk => ?_⟩
  simp only [encode, BitVec.getLsbD_append]
  interval_cases k <;> simp

theorem jsrr (rs : RegIdx) : Statement (.jsrr rs) := by
  refine ⟨⟨"JSRR", 0x4000, 0xF800⟩, by decide, rfl, holds_of_bits fun k hk => ?_⟩
  simp only [encode, BitVec.getLsbD_append]
  interval_cases k <;> simp

theorem jsr (imm : BitVec 11) : Statement (.jsr imm) := by
  refine ⟨⟨"JSR", 0x4800, 0xF800⟩, by decide, rfl, holds_of_bits fun k hk => ?_⟩
  simp only [encode, BitVec.getLsbD_append]
  interval_cases k <;> simp

theorem and (rd : RegIdx) (rs : RegIdx) (rt : RegIdx) : Statement (.and rd rs rt) := by
  refine ⟨⟨"AND", 0x5000, 0xF038⟩, by decide, rfl, holds_of_bits fun k hk => ?_⟩
  simp only [encode, encodeRRR, BitVec.getLsbD_append]
  interval_cases k <;> simp

theorem not (rd : RegIdx) (rs : RegIdx) : Statement (.not rd rs) := by
  refine ⟨⟨"NOT", 0x5008, 0xF038⟩, by decide, rfl, holds_of_bits fun k hk => ?_⟩
  simp only [encode, encodeRRR, BitVec.getLsbD_append]
  interval_cases k <;> simp

theorem or (rd : RegIdx) (rs : RegIdx) (rt : RegIdx) : Statement (.or rd rs rt) := by
  refine ⟨⟨"OR", 0x5010, 0xF038⟩, by decide, rfl, holds_of_bits fun k hk => ?_⟩
  simp only [encode, encodeRRR, BitVec.getLsbD_append]
  interval_cases k <;> simp

theorem xor (rd : RegIdx) (rs : RegIdx) (rt : RegIdx) : Statement (.xor rd rs rt) := by
  refine ⟨⟨"XOR", 0x5018, 0xF038⟩, by decide, rfl, holds_of_bits fun k hk => ?_⟩
  simp only [encode, encodeRRR, BitVec.getLsbD_append]
  interval_cases k <;> simp

theorem andi (rd : RegIdx) (rs : RegIdx) (imm : Word) : Statement (.andi rd rs imm) := by
  refine ⟨⟨"ANDI", 0x5020, 0xF020⟩, by decide, rfl, holds_of_bits fun k hk => ?_⟩
  simp only [encode, encodeRRI5, BitVec.getLsbD_append]
  interval_cases k <;> simp

theorem ldr (rd : RegIdx) (rs : RegIdx) (off : Word) : Statement (.ldr rd rs off) := by
  refine ⟨⟨"LDR", 0x6000, 0xF000⟩, by decide, rfl, holds_of_bits fun k hk => ?_⟩
  simp only [encode, encodeMem, BitVec.getLsbD_append]
  interval_cases k <;> simp

theorem str (rt : RegIdx) (rs : RegIdx) (off : Word) : Statement (.str rt rs off) := by
  refine ⟨⟨"STR", 0x7000, 0xF000⟩, by decide, rfl, holds_of_bits fun k hk => ?_⟩
  simp only [encode, encodeMem, BitVec.getLsbD_append]
  interval_cases k <;> simp

theorem rti : Statement (.rti) := by
  refine ⟨⟨"RTI", 0x8000, 0xF000⟩, by decide, rfl, holds_of_bits fun k hk => ?_⟩
  simp only [encode, BitVec.getLsbD_append]
  interval_cases k <;> simp

theorem const (rd : RegIdx) (imm : Word) : Statement (.const rd imm) := by
  refine ⟨⟨"CONST", 0x9000, 0xF000⟩, by decide, rfl, holds_of_bits fun k hk => ?_⟩
  simp only [encode, BitVec.getLsbD_append]
  interval_cases k <;> simp

theorem sll (rd : RegIdx) (rs : RegIdx) (amount : BitVec 4) : Statement (.sll rd rs amount) := by
  refine ⟨⟨"SLL", 0xA000, 0xF030⟩, by decide, rfl, holds_of_bits fun k hk => ?_⟩
  simp only [encode, encodeShift, BitVec.getLsbD_append]
  interval_cases k <;> simp

theorem sra (rd : RegIdx) (rs : RegIdx) (amount : BitVec 4) : Statement (.sra rd rs amount) := by
  refine ⟨⟨"SRA", 0xA010, 0xF030⟩, by decide, rfl, holds_of_bits fun k hk => ?_⟩
  simp only [encode, encodeShift, BitVec.getLsbD_append]
  interval_cases k <;> simp

theorem srl (rd : RegIdx) (rs : RegIdx) (amount : BitVec 4) : Statement (.srl rd rs amount) := by
  refine ⟨⟨"SRL", 0xA020, 0xF030⟩, by decide, rfl, holds_of_bits fun k hk => ?_⟩
  simp only [encode, encodeShift, BitVec.getLsbD_append]
  interval_cases k <;> simp

theorem mod (rd : RegIdx) (rs : RegIdx) (rt : RegIdx) : Statement (.mod rd rs rt) := by
  refine ⟨⟨"MOD", 0xA030, 0xF030⟩, by decide, rfl, holds_of_bits fun k hk => ?_⟩
  simp only [encode, BitVec.getLsbD_append]
  interval_cases k <;> simp

theorem jmpr (rs : RegIdx) : Statement (.jmpr rs) := by
  refine ⟨⟨"JMPR", 0xC000, 0xF800⟩, by decide, rfl, holds_of_bits fun k hk => ?_⟩
  simp only [encode, BitVec.getLsbD_append]
  interval_cases k <;> simp

theorem jmp (off : Word) : Statement (.jmp off) := by
  refine ⟨⟨"JMP", 0xC800, 0xF800⟩, by decide, rfl, holds_of_bits fun k hk => ?_⟩
  simp only [encode, BitVec.getLsbD_append]
  interval_cases k <;> simp

theorem hiconst (rd : RegIdx) (uimm : BitVec 8) : Statement (.hiconst rd uimm) := by
  refine ⟨⟨"HICONST", 0xD100, 0xF100⟩, by decide, rfl, holds_of_bits fun k hk => ?_⟩
  simp only [encode, BitVec.getLsbD_append]
  interval_cases k <;> simp

theorem hiconstStall (rd : RegIdx) (low : BitVec 8) : Statement (.hiconstStall rd low) := by
  refine ⟨⟨"HICONST_STALL", 0xD000, 0xF100⟩, by decide, rfl, holds_of_bits fun k hk => ?_⟩
  simp only [encode, BitVec.getLsbD_append]
  interval_cases k <;> simp

theorem trap (vec : BitVec 8) : Statement (.trap vec) := by
  refine ⟨⟨"TRAP", 0xF000, 0xF000⟩, by decide, rfl, holds_of_bits fun k hk => ?_⟩
  simp only [encode, BitVec.getLsbD_append]
  interval_cases k <;> simp

theorem unassigned0011 (low : BitVec 12) : Statement (.unassigned0011 low) := by
  refine ⟨⟨"UNASSIGNED_0011", 0x3000, 0xF000⟩, by decide, rfl, holds_of_bits fun k hk => ?_⟩
  simp only [encode, BitVec.getLsbD_append]
  interval_cases k <;> simp

theorem unassigned1011 (low : BitVec 12) : Statement (.unassigned1011 low) := by
  refine ⟨⟨"UNASSIGNED_1011", 0xB000, 0xF000⟩, by decide, rfl, holds_of_bits fun k hk => ?_⟩
  simp only [encode, BitVec.getLsbD_append]
  interval_cases k <;> simp

theorem unassigned1110 (low : BitVec 12) : Statement (.unassigned1110 low) := by
  refine ⟨⟨"UNASSIGNED_1110", 0xE000, 0xF000⟩, by decide, rfl, holds_of_bits fun k hk => ?_⟩
  simp only [encode, BitVec.getLsbD_append]
  interval_cases k <;> simp

end Sys2Proof.Laws.EncodesInRow
end

