-- ==== Sys2Proof/Tests/Slice0.lean ====
section
/-! SUPPORT. The model's own tests. Words and expected results are the spec's: the encodings of 30_encoding.md, the vectors
of 95_test_vectors.md (its rows' start state, end state and outcome) and the rules named. The witnesses at the end show,
for each statement with hypotheses, a state and operands that meet them. -/

namespace Sys2Proof.Tests

open Sys2Proof.Machine

/-! ## Helpers -/

/-- Registers set. -/
def withRegs (s : State) : List (RegIdx × Word) → State
  | [] => s
  | (r, v) :: rs => withRegs (writeReg r v s) rs

/-- Memory words set. -/
def withWords (m : Memory) : List (Word × Word) → Memory
  | [] => m
  | (a, v) :: ws => withWords (m.writeWord a v) ws

/-- A start state of 95_test_vectors.md: all but what is given is 0, and the word `I` stands at the pc. -/
def start (pc psr : Word) (regs : List (RegIdx × Word)) (words : List (Word × Word)) (I : Word) : State :=
  { clearSnap (withRegs State.reset regs) with pc := pc, psr := psr, mem := withWords [] ((pc, I) :: words) }

/-- The answer is a next state with this pc and psr, these register values and these memory words. -/
def leaves (a : Answer) (pc psr : Word) (regs : List (RegIdx × Word)) (words : List (Word × Word)) : Bool :=
  match a with
  | .next t => t.pc == pc && t.psr == psr && regs.all (fun p => t.reg p.1 == p.2) &&
      words.all fun p => t.mem.readWord p.1 == p.2
  | _ => false

/-- The answer is this fault. -/
def faults (a : Answer) (f : Fault) : Bool :=
  match a with
  | .fault g => g == f
  | _ => false

/-- The answer is this refusal. -/
def refuses (a : Answer) (r : Refusal) : Bool :=
  match a with
  | .refused q => q == r
  | _ => false

/-- The answer is a next state, of which the test holds. -/
def nextWith (a : Answer) (p : State → Bool) : Bool :=
  match a with
  | .next t => p t
  | _ => false

theorem nextWith_iff {a : Answer} {p : State → Bool} : nextWith a p = true ↔ ∃ t, a = .next t ∧ p t = true := by
  cases a <;> simp [nextWith]

/-! ## Decoding: each format's bits written out (30_encoding.md) -/

theorem test_decode_branch :
    decode 0b0000_000_000000101 = .nop 5 ∧
    decode 0b0000_001_111111111 = .brp 0xFFFF ∧
    decode 0b0000_010_000000011 = .brz 3 ∧
    decode 0b0000_011_111111101 = .brzp 0xFFFD ∧
    decode 0b0000_100_011111111 = .brn 255 ∧
    decode 0b0000_101_100000000 = .brnp 0xFF00 ∧
    decode 0b0000_110_000000001 = .brnz 1 ∧
    decode 0b0000_111_000000010 = .brnzp 2 := by
  decide

theorem test_decode_arithmetic :
    decode 0b0001_001_010_000_011 = .add 1 2 3 ∧
    decode 0b0001_100_101_001_110 = .mul 4 5 6 ∧
    decode 0b0001_111_000_010_001 = .sub 7 0 1 ∧
    decode 0b0001_010_011_011_100 = .div 2 3 4 ∧
    decode 0b0001_001_010_1_10000 = .addi 1 2 0xFFF0 ∧
    decode 0b0001_001_010_1_01111 = .addi 1 2 15 := by
  decide

theorem test_decode_compare :
    decode 0b0010_010_00_0000_011 = .cmp 2 3 ∧
    decode 0b0010_101_01_0000_110 = .cmpu 5 6 ∧
    decode 0b0010_001_10_1000000 = .cmpi 1 0x40 ∧
    decode 0b0010_110_11_1111110 = .cmpiu 6 126 := by
  decide

theorem test_decode_call :
    decode 0b0100_0_00_011_000000 = .jsrr 3 ∧
    decode 0b0100_1_00100100011 = .jsr 0x123 := by
  decide

theorem test_decode_logical :
    decode 0b0101_001_010_000_011 = .and 1 2 3 ∧
    decode 0b0101_100_101_001_000 = .not 4 5 ∧
    decode 0b0101_110_111_010_000 = .or 6 7 0 ∧
    decode 0b0101_011_010_011_001 = .xor 3 2 1 ∧
    decode 0b0101_001_010_1_11111 = .andi 1 2 0xFFFF := by
  decide

theorem test_decode_load_and_store :
    decode 0b0110_001_010_111111 = .ldr 1 2 0xFFFF ∧
    decode 0b0111_001_010_000101 = .str 1 2 5 ∧
    decode 0b0110_011_100_100000 = .ldr 3 4 0xFFE0 ∧
    decode 0b0111_101_110_011111 = .str 5 6 31 := by
  decide

theorem test_decode_constants :
    decode 0b1001_000_000000101 = .const 0 5 ∧
    decode 0b1001_011_100000000 = .const 3 0xFF00 ∧
    decode 0b1101_001_1_10101011 = .hiconst 1 0xAB ∧
    decode 0b1101_010_0_00000111 = .hiconstStall 2 7 := by
  decide

theorem test_decode_shift_and_modulo :
    decode 0b1010_001_010_00_0100 = .sll 1 2 4 ∧
    decode 0b1010_011_100_01_1111 = .sra 3 4 15 ∧
    decode 0b1010_101_110_10_0001 = .srl 5 6 1 ∧
    decode 0b1010_001_010_11_0_011 = .mod 1 2 3 := by
  decide

theorem test_decode_jump :
    decode 0b1100_0_00_011_000000 = .jmpr 3 ∧
    decode 0b1100_1_01111111111 = .jmp 0x3FF ∧
    decode 0b1100_1_10000000000 = .jmp 0xFC00 := by
  decide

theorem test_decode_system :
    decode 0b1000_000000000000 = .rti ∧
    decode 0b1111_0000_00100000 = .trap 0x20 ∧
    decode 0b0011_000000000001 = .unassigned0011 1 ∧
    decode 0b1011_000100100011 = .unassigned1011 0x123 ∧
    decode 0b1110_100000000000 = .unassigned1110 0x800 := by
  decide

/-- Bits marked x are ignored (R87). -/
theorem test_decode_ignores_x_bits :
    decode 0b0010_010_00_1111_011 = .cmp 2 3 ∧ decode 0b0100_0_11_011_111111 = .jsrr 3 ∧
    decode 0b0101_100_101_001_111 = .not 4 5 ∧ decode 0b1000_111111111111 = .rti ∧
    decode 0b1010_001_010_11_1_011 = .mod 1 2 3 ∧ decode 0b1100_0_11_011_111111 = .jmpr 3 ∧
    decode 0b1111_1111_00100000 = .trap 0x20 := by
  decide

theorem test_encode_words :
    encode (.brz 3) = 0x0403 ∧ encode (.add 1 2 3) = 0x1283 ∧ encode (.cmpi 1 0x40) = 0x2340 ∧
    encode (.jsr 0x123) = 0x4923 ∧ encode (.andi 1 2 0xFFF0) = 0x52B0 ∧ encode (.ldr 1 2 0xFFFF) = 0x62BF ∧
    encode (.str 1 2 5) = 0x7285 ∧ encode (.const 1 0xFF00) = 0x9300 ∧ encode (.sra 1 2 4) = 0xA294 ∧
    encode (.jmp 0xFC00) = 0xCC00 ∧ encode (.hiconst 1 0xAB) = 0xD3AB ∧ encode (.trap 0xFF) = 0xF0FF := by
  decide

theorem test_decode_table_word :
    decodeTableWord 16 0x1283 = some (.add 1 2 3) ∧ decodeTableWord 8 0x05 = some (.nop 5) ∧
    decodeTableWord 32 0x1283 = none := by
  decide

/-! ## Well-formedness: an ill-formed term for each check, refused (R85) -/

theorem test_ill_formed_branches_are_refused :
    Instr.wellFormed (.nop 0x0100) = false ∧ Instr.wellFormed (.nop 0xFEFF) = false ∧
    Instr.wellFormed (.brp 0x0100) = false ∧ Instr.wellFormed (.brp 0xFEFF) = false ∧
    Instr.wellFormed (.brz 0x0100) = false ∧ Instr.wellFormed (.brz 0xFEFF) = false ∧
    Instr.wellFormed (.brzp 0x0100) = false ∧ Instr.wellFormed (.brzp 0xFEFF) = false ∧
    Instr.wellFormed (.brn 0x0100) = false ∧ Instr.wellFormed (.brn 0xFEFF) = false ∧
    Instr.wellFormed (.brnp 0x0100) = false ∧ Instr.wellFormed (.brnp 0xFEFF) = false ∧
    Instr.wellFormed (.brnz 0x0100) = false ∧ Instr.wellFormed (.brnz 0xFEFF) = false ∧
    Instr.wellFormed (.brnzp 0x0100) = false ∧ Instr.wellFormed (.brnzp 0xFEFF) = false := by
  decide

theorem test_ill_formed_immediates_are_refused :
    Instr.wellFormed (.addi 1 2 16) = false ∧ Instr.wellFormed (.addi 1 2 0xFFEF) = false ∧
    Instr.wellFormed (.andi 1 2 16) = false ∧ Instr.wellFormed (.andi 1 2 0xFFEF) = false ∧
    Instr.wellFormed (.ldr 1 2 32) = false ∧ Instr.wellFormed (.ldr 1 2 0xFFDF) = false ∧
    Instr.wellFormed (.str 1 2 32) = false ∧ Instr.wellFormed (.str 1 2 0xFFDF) = false ∧
    Instr.wellFormed (.const 1 0x0100) = false ∧ Instr.wellFormed (.const 1 0xFEFF) = false ∧
    Instr.wellFormed (.jmp 0x0400) = false ∧ Instr.wellFormed (.jmp 0xFBFF) = false := by
  decide

/-! ## One step each, from 95_test_vectors.md sections 1 and 2 -/

theorem test_nop_goes_on :
    leaves (step (start 0x0000 0x8002 [] [] 0x0000)) 0x0001 0x8002 []
      [] = true := by
  decide

theorem test_brnzp_with_code_000_is_not_taken :
    leaves (step (start 0x8200 0x8000 [] [] 0x0E05)) 0x8201 0x8000 []
      [] = true := by
  decide

theorem test_brn_taken :
    leaves (step (start 0x0010 0x0004 [] [] 0x0805)) 0x0016 0x0004 []
      [] = true := by
  decide

theorem test_brn_not_taken :
    leaves (step (start 0x0010 0x0001 [] [] 0x0805)) 0x0011 0x0001 []
      [] = true := by
  decide

theorem test_brzp_backward :
    leaves (step (start 0x0010 0x0002 [] [] 0x07FD)) 0x000E 0x0002 []
      [] = true := by
  decide

theorem test_brz_to_itself :
    leaves (step (start 0x0010 0x0002 [] [] 0x05FF)) 0x0010 0x0002 []
      [] = true := by
  decide

theorem test_brp_farthest :
    leaves (step (start 0x0000 0x0001 [] [] 0x02FF)) 0x0100 0x0001 []
      [] = true := by
  decide

theorem test_brnzp_wraps :
    leaves (step (start 0x0000 0x0004 [] [] 0x0F00)) 0xFF01 0x0004 []
      [] = true := by
  decide

theorem test_brnp_backward :
    leaves (step (start 0x0100 0x0001 [] [] 0x0B00)) 0x0001 0x0001 []
      [] = true := by
  decide

theorem test_add_overflows_to_negative :
    leaves (step (start 0x0000 0x8000 [(2, 0x7FFF), (3, 0x0001)] [] 0x1283)) 0x0001 0x8004 [(1, 0x8000)]
      [] = true := by
  decide

theorem test_add_reads_before_it_writes :
    leaves (step (start 0x0000 0x8000 [(1, 0x8000)] [] 0x1241)) 0x0001 0x8002 [(1, 0x0000)]
      [] = true := by
  decide

theorem test_mul_keeps_the_low_half :
    leaves (step (start 0x0000 0x8000 [(2, 0xFFFF), (3, 0xFFFF)] [] 0x128B)) 0x0001 0x8001 [(1, 0x0001)]
      [] = true := by
  decide

theorem test_mul_signed_operand :
    leaves (step (start 0x0000 0x8000 [(2, 0x0003), (3, 0xFFFE)] [] 0x128B)) 0x0001 0x8004 [(1, 0xFFFA)]
      [] = true := by
  decide

theorem test_sub_wraps_to_positive :
    leaves (step (start 0x0000 0x8000 [(2, 0x8000), (3, 0x0001)] [] 0x1293)) 0x0001 0x8001 [(1, 0x7FFF)]
      [] = true := by
  decide

theorem test_sub_below_zero :
    leaves (step (start 0x0000 0x8000 [(2, 0x0000), (3, 0x0001)] [] 0x1293)) 0x0001 0x8004 [(1, 0xFFFF)]
      [] = true := by
  decide

theorem test_div_is_unsigned :
    leaves (step (start 0x0000 0x8000 [(2, 0xFFFF), (3, 0x0002)] [] 0x129B)) 0x0001 0x8001 [(1, 0x7FFF)]
      [] = true := by
  decide

theorem test_div_negative_quotient_pattern :
    leaves (step (start 0x0000 0x8000 [(2, 0x8000), (3, 0x0001)] [] 0x129B)) 0x0001 0x8004 [(1, 0x8000)]
      [] = true := by
  decide

theorem test_addi_negative_immediate :
    leaves (step (start 0x0000 0x8000 [(2, 0x0010)] [] 0x12B0)) 0x0001 0x8002 [(1, 0x0000)]
      [] = true := by
  decide

theorem test_addi_largest_immediate :
    leaves (step (start 0x0000 0x8000 [(2, 0xFFFF)] [] 0x12AF)) 0x0001 0x8001 [(1, 0x000E)]
      [] = true := by
  decide

theorem test_cmp_is_exact_and_signed :
    leaves (step (start 0x0000 0x8000 [(2, 0x7FFF), (3, 0x8000)] [] 0x2403)) 0x0001 0x8001 []
      [] = true := by
  decide

theorem test_cmpu_is_unsigned :
    leaves (step (start 0x0000 0x8000 [(2, 0x7FFF), (3, 0x8000)] [] 0x2483)) 0x0001 0x8004 []
      [] = true := by
  decide

theorem test_cmpi_equal_to_minus_64 :
    leaves (step (start 0x0000 0x8000 [(2, 0xFFC0)] [] 0x2540)) 0x0001 0x8002 []
      [] = true := by
  decide

theorem test_cmpi_smallest_operand :
    leaves (step (start 0x0000 0x8000 [(2, 0x8000)] [] 0x2540)) 0x0001 0x8004 []
      [] = true := by
  decide

theorem test_cmpiu_final_is_unsigned :
    leaves (step (start 0x0000 0x8000 [(2, 0x8000)] [] 0x25FF)) 0x0001 0x8001 []
      [] = true := by
  decide

theorem test_cmpiu_below :
    leaves (step (start 0x0000 0x8000 [(2, 0x0000)] [] 0x25FF)) 0x0001 0x8004 []
      [] = true := by
  decide

theorem test_and :
    leaves (step (start 0x0000 0x8000 [(2, 0xF0F0), (3, 0xFF00)] [] 0x5283)) 0x0001 0x8004 [(1, 0xF000)]
      [] = true := by
  decide

theorem test_not :
    leaves (step (start 0x0000 0x8000 [(2, 0x0000)] [] 0x5288)) 0x0001 0x8004 [(1, 0xFFFF)]
      [] = true := by
  decide

theorem test_or :
    leaves (step (start 0x0000 0x8000 [(2, 0xF0F0), (3, 0x0F0F)] [] 0x5293)) 0x0001 0x8004 [(1, 0xFFFF)]
      [] = true := by
  decide

theorem test_xor :
    leaves (step (start 0x0000 0x8000 [(2, 0x00FF), (3, 0x0F0F)] [] 0x529B)) 0x0001 0x8001 [(1, 0x0FF0)]
      [] = true := by
  decide

theorem test_andi_sign_extends :
    leaves (step (start 0x0000 0x8000 [(2, 0x1234)] [] 0x52B0)) 0x0001 0x8001 [(1, 0x1230)]
      [] = true := by
  decide

theorem test_jmpr :
    leaves (step (start 0x0010 0x8000 [(3, 0x1000)] [] 0xC0C0)) 0x1000 0x8000 [(3, 0x1000)]
      [] = true := by
  decide

theorem test_jmp_farthest_forward :
    leaves (step (start 0x0010 0x8000 [] [] 0xCBFF)) 0x0410 0x8000 []
      [] = true := by
  decide

theorem test_jmp_backward_wraps :
    leaves (step (start 0x0010 0x8000 [] [] 0xCC00)) 0xFC11 0x8000 []
      [] = true := by
  decide

theorem test_jsrr :
    leaves (step (start 0x0010 0x0001 [(3, 0x1000)] [] 0x40C0)) 0x1000 0x0001 [(7, 0x0011)]
      [] = true := by
  decide

theorem test_jsrr_reads_r7_before_the_link :
    leaves (step (start 0x0010 0x8000 [(7, 0x0040)] [] 0x41C0)) 0x0040 0x8001 [(7, 0x0011)]
      [] = true := by
  decide

theorem test_jsr_keeps_bit_15_of_the_pc :
    leaves (step (start 0x8200 0x8000 [] [] 0x4923)) 0x9230 0x8004 [(7, 0x8201)]
      [] = true := by
  decide

theorem test_jsr_immediate_is_not_signed :
    leaves (step (start 0x0010 0x0000 [] [] 0x4C00)) 0x4000 0x0001 [(7, 0x0011)]
      [] = true := by
  decide

theorem test_sll :
    leaves (step (start 0x0000 0x8000 [(2, 0x0003)] [] 0xA28F)) 0x0001 0x8004 [(1, 0x8000)]
      [] = true := by
  decide

theorem test_sll_by_zero :
    leaves (step (start 0x0000 0x8000 [(2, 0x8001)] [] 0xA280)) 0x0001 0x8004 [(1, 0x8001)]
      [] = true := by
  decide

theorem test_sra_copies_the_sign :
    leaves (step (start 0x0000 0x8000 [(2, 0x8000)] [] 0xA294)) 0x0001 0x8004 [(1, 0xF800)]
      [] = true := by
  decide

theorem test_srl_enters_zeros :
    leaves (step (start 0x0000 0x8000 [(2, 0x8000)] [] 0xA2A4)) 0x0001 0x8001 [(1, 0x0800)]
      [] = true := by
  decide

theorem test_mod :
    leaves (step (start 0x0000 0x8000 [(2, 0x0064), (3, 0x0007)] [] 0xA2B3)) 0x0001 0x8001 [(1, 0x0002)]
      [] = true := by
  decide

theorem test_mod_is_unsigned :
    leaves (step (start 0x0000 0x8000 [(2, 0xFFFF), (3, 0x0010)] [] 0xA2B3)) 0x0001 0x8001 [(1, 0x000F)]
      [] = true := by
  decide

theorem test_ldr_negative_offset :
    leaves (step (start 0x0010 0x8000 [(2, 0x4000)] [(0x3FFF, 0xBEEF)] 0x62BF)) 0x0011 0x8004 [(1, 0xBEEF)]
      [] = true := by
  decide

theorem test_ldr_address_wraps :
    leaves (step (start 0x0010 0x8000 [(2, 0xFFFF)] [(0x001E, 0x0777)] 0x629F)) 0x0011 0x8001 [(1, 0x0777)]
      [] = true := by
  decide

theorem test_str :
    leaves (step (start 0x0010 0x0000 [(1, 0xCAFE), (2, 0x3000)] [] 0x7285)) 0x0011 0x0000 [(1, 0xCAFE)]
      [(0x3005, 0xCAFE)] = true := by
  decide

theorem test_str_address_wraps :
    leaves (step (start 0x8200 0x8000 [(1, 0x0001), (2, 0x0000)] [] 0x72A0)) 0x8201 0x8000 []
      [(0xFFE0, 0x0001)] = true := by
  decide

theorem test_const_sign_extends :
    leaves (step (start 0x0000 0x8000 [] [] 0x9300)) 0x0001 0x8004 [(1, 0xFF00)]
      [] = true := by
  decide

theorem test_const_replaces_the_register :
    leaves (step (start 0x0000 0x8000 [(1, 0xABCD)] [] 0x92FF)) 0x0001 0x8001 [(1, 0x00FF)]
      [] = true := by
  decide

theorem test_hiconst_keeps_the_low_byte :
    leaves (step (start 0x0000 0x8000 [(1, 0x1234)] [] 0xD3AB)) 0x0001 0x8004 [(1, 0xAB34)]
      [] = true := by
  decide

theorem test_hiconst_stall_stays :
    leaves (step (start 0x8200 0x8004 [(1, 0x1234)] [] 0xD200)) 0x8200 0x8004 [(1, 0x1234)]
      [] = true := by
  decide

theorem test_trap_from_user_mode :
    leaves (step (start 0x0010 0x0000 [] [] 0xF020)) 0x8020 0x8001 [(7, 0x0011)]
      [] = true := by
  decide

theorem test_trap_from_supervisor_mode :
    leaves (step (start 0x8300 0x8002 [] [] 0xF0FF)) 0x80FF 0x8004 [(7, 0x8301)]
      [] = true := by
  decide

theorem test_rti_clears_the_privilege_bit :
    leaves (step (start 0x8100 0x8001 [(7, 0x0000)] [] 0x8000)) 0x0000 0x0001 []
      [] = true := by
  decide

theorem test_rti_in_user_mode :
    leaves (step (start 0x0010 0x0002 [(7, 0x0005)] [] 0x8000)) 0x0005 0x0002 [(7, 0x0005)]
      [] = true := by
  decide

theorem test_fetch_at_the_last_user_word :
    leaves (step (start 0x1FFF 0x0000 [] [] 0x0000)) 0x2000 0x0000 []
      [] = true := by
  decide

theorem test_fetch_at_the_last_supervisor_word :
    leaves (step (start 0x9FFF 0x8000 [] [] 0x0000)) 0xA000 0x8000 []
      [] = true := by
  decide

/-- A division by zero writes the draw, whatever it is, and its code (R116). -/
theorem test_division_by_zero_writes_the_draw :
    nextWith (step (start 0x0000 0x8000 [(2, 0x1234)] [] 0x129B)) (fun t => t.pc == 1) = true ∧
    ∀ t, step (start 0x0000 0x8000 [(2, 0x1234)] [] 0x129B) = .next t → t.reg 1 = Config.div0Draw 0 := by
  refine ⟨by decide, ?_⟩
  rintro t ⟨⟩
  rfl

theorem test_unassigned_opcodes_are_refused :
    refuses (step (start 0x0010 0x8000 [] [] 0x3000)) (.unassignedOpcode 0x3000) = true ∧
    refuses (step (start 0x0010 0x8000 [] [] 0xB123)) (.unassignedOpcode 0xB123) = true ∧
    refuses (step (start 0x0010 0x8000 [] [] 0xE000)) (.unassignedOpcode 0xE000) = true := by
  decide

theorem test_data_protection :
    faults (step (start 0x0010 0x0000 [(2, 0x8000)] [] 0x6280)) (.dataProtection 0x8000 0x0010) = true ∧
    faults (step (start 0x0010 0x0000 [(1, 0xCAFE), (2, 0x7FFF)] [] 0x7281)) (.dataProtection 0x8000 0x0010) = true ∧
    leaves (step (start 0x0010 0x0000 [(2, 0x7FFF)] [] 0x6280)) 0x0011 0x0002 [(1, 0x0000)] [] = true ∧
    leaves (step (start 0x8200 0x8000 [(2, 0xA000)] [(0xA000, 0x1111)] 0x6280)) 0x8201 0x8001 [(1, 0x1111)] [] = true := by
  decide

theorem test_fetch_protection :
    faults (step (start 0x5000 0x8000 [] [] 0x0000)) (.fetchProtection 0x5000 .cond2) = true ∧
    faults (step (start 0x5000 0x0000 [] [] 0x0000)) (.fetchProtection 0x5000 .cond2) = true ∧
    faults (step (start 0x8200 0x0000 [] [] 0x0000)) (.fetchProtection 0x8200 .cond1) = true ∧
    faults (step (start 0xA000 0x8000 [] [] 0x0000)) (.fetchProtection 0xA000 .cond3) = true ∧
    faults (step (start 0xFFFF 0x0000 [] [] 0x0000)) (.fetchProtection 0xFFFF .cond1) = true ∧
    faults (step (start 0x2000 0x0000 [] [] 0x0000)) (.fetchProtection 0x2000 .cond2) = true := by
  decide

/-! ## Other parameter values (95_test_vectors.md section 3) -/

def signedDivision : Config := { Config.standard with divmodSigned := true }
def zeroDivision : Config := { Config.standard with div0 := .lc4Zero }
def signedFinal : Config := { Config.standard with cmpiuFinal := .signed }
def silentLink : Config := { Config.standard with linkWritesNzp := false }
def faulting : Config := { Config.standard with unassignedPolicy := .fault, hiconst0Policy := .fault }
def stalling : Config := { Config.standard with unassignedPolicy := .stall }

theorem test_signed_division :
    leaves (stepWith signedDivision (start 0 0x8000 [(2, 0xFFFF), (3, 2)] [] 0x129B)) 1 0x8002 [(1, 0)] [] = true ∧
    leaves (stepWith signedDivision (start 0 0x8000 [(2, 0x8000), (3, 0xFFFF)] [] 0x129B)) 1 0x8004 [(1, 0x8000)] []
      = true ∧
    leaves (stepWith signedDivision (start 0 0x8000 [(2, 0xFFFF), (3, 16)] [] 0xA2B3)) 1 0x8004 [(1, 0xFFFF)] []
      = true := by
  decide

theorem test_lc4_zero :
    leaves (stepWith zeroDivision (start 0 0x8000 [(2, 0x1234)] [] 0x129B)) 1 0x8002 [(1, 0)] [] = true ∧
    leaves (stepWith zeroDivision (start 0 0x8000 [(2, 0x1234)] [] 0xA2B3)) 1 0x8002 [(1, 0)] [] = true := by
  decide

theorem test_cmpiu_final_signed :
    leaves (stepWith signedFinal (start 0 0x8000 [(2, 0x8000)] [] 0x25FF)) 1 0x8004 [] [] = true := by
  decide

theorem test_links_without_flags :
    leaves (stepWith silentLink (start 0x10 0x0004 [(3, 0x1000)] [] 0x40C0)) 0x1000 0x0004 [(7, 0x11)] [] = true ∧
    leaves (stepWith silentLink (start 0x10 0x0004 [] [] 0xF020)) 0x8020 0x8004 [(7, 0x11)] [] = true ∧
    nextWith (stepWith silentLink (start 0x10 0x0004 [] [] 0xF020)) (fun t => !t.snap.nzpWE && t.snap.nzpValue == 0)
      = true := by
  decide

theorem test_policies :
    faults (stepWith faulting (start 0x8200 0x8000 [] [] 0xD200)) (.illegalInstruction 0x8200 0xD200) = true ∧
    faults (stepWith faulting (start 0x10 0x8000 [] [] 0x3000)) (.illegalInstruction 0x0010 0x3000) = true ∧
    leaves (stepWith stalling (start 0x10 0x8004 [] [] 0xB123)) 0x0010 0x8004 [] [] = true := by
  decide

/-- Runs under other values: `halt_pc` at 0x8202 after two NOPs, and an unassigned word that stalls for ever. -/
theorem test_runs_under_other_parameters :
    (driveWith { Config.standard with haltPc := 0x8202 } 5 State.reset).ending = .halted ∧
    (driveWith { Config.standard with haltPc := 0x8202 } 5 State.reset).trace.length = 2 ∧
    (driveWith Config.standard 2 State.reset).ending = .stepLimit ∧
    (driveWith stalling 2 (start 0x10 0x8000 [] [] 0xE000)).ending = .stepLimit ∧
    (driveWith faulting 2 (start 0x10 0x8000 [] [] 0xE000)).ending = .faulted (.illegalInstruction 0x0010 0xE000) := by
  decide

/-! ## Reset, snapshot, trace, loader and driver -/

/-- S1 of 95_test_vectors.md. -/
theorem test_reset_then_step : leaves (step State.reset) 0x8201 0x8000 [] [] = true := by decide

/-- R33. -/
theorem test_snapshot_before_the_first_step :
    State.reset.readSnapshot = .error .snapshotBeforeFirstStep ∧
    nextWith (step State.reset) (fun t => t.readSnapshot.isOk) = true := by
  decide

/-- The characters of S3's trace line: `8200 1001000000000101 1 0 0005 1 1 0 0000 0000`. -/
theorem test_trace_line :
    traceLine ⟨0x8200, 0x9005, ⟨true, 0, 5, true, 1, false, 0, 0, 0, 0⟩⟩
      = "8200 1001000000000101 1 0 0005 1 1 0 0000 0000\n" := by
  decide

/-- The fields of a load's record: `0010 0110001010111111 1 1 BEEF 1 4 0 3FFF BEEF`. -/
theorem test_load_record :
    nextWith (step (start 0x0010 0x8000 [(2, 0x4000)] [(0x3FFF, 0xBEEF)] 0x62BF)) (fun t =>
      t.retired == some ⟨0x0010, 0x62BF⟩ && t.snap.regWE && t.snap.rd == 1 && t.snap.regValue == 0xBEEF && t.snap.nzpWE &&
      t.snap.nzpValue == 4 && !t.snap.dmemWE && t.snap.dmemAddr == 0x3FFF && t.snap.dmemValue == 0xBEEF) = true := by
  decide

/-- S3: the object file DE CA 82 00 00 01 90 05, then one step. -/
theorem test_load_then_step :
    nextWith (boot [[0xDE, 0xCA, 0x82, 0x00, 0x00, 0x01, 0x90, 0x05]]) (fun t =>
      leaves (step t) 0x8201 0x8001 [(0, 5)] [(0x8200, 0x9005)]) = true := by
  decide

/-- R352, D24: a segment at 0xFFFF with two words is refused, and the word that fits is no header. -/
theorem test_load_past_the_end :
    refuses (boot [[0xDA, 0xDA, 0xFF, 0xFF, 0x00, 0x02, 0x12, 0x34, 0x56, 0x78]]) (.loadPastEnd 65536) = true := by
  decide

/-- R356: the driver stops at the halt address before the step. -/
theorem test_driver_halts : (drive 0x8201 5 State.reset).ending = .halted := by decide

/-- withFetchWord places the word the next step runs. -/
theorem test_placed_word_runs :
    leaves (step (State.reset.withFetchWord 16 0x9005)) 0x8201 0x8001 [(0, 5)] [(0x8200, 0x9005)] = true := by
  decide

/-! ## Witnesses: each statement's hypotheses are met, clause by clause, at boundary values -/

/-- A supervisor state that no reset gives: registers, flags and memory are set. -/
def busy : State := start 0x8200 0x8004 [(1, 0xFFFF), (2, 0x7FFF), (3, 0x0000), (7, 0x0005)] [(0x7FFF, 0xBEEF)] 0x1283

/-- A user state at the last user word. -/
def lowly (I : Word) : State := start 0x1FFF 0x0002 [(1, 0xFFFF), (2, 0x7FFF), (4, 0x8000)] [(0x7FFF, 0xBEEF)] I

theorem busy_inv : busy.Inv := by
  constructor <;> decide +revert

theorem lowly_inv : (lowly 0xF0FF).Inv := by
  constructor <;> decide +revert

/-- For DecodeOfEncode, and with `fetchForbidden` for PlacedInstructionRunsNext. -/
theorem witness_wellFormed :
    Instr.wellFormed (.ldr 1 2 0xFFE0) = true ∧ Instr.wellFormed (.ldr 1 2 31) = true ∧
    Instr.wellFormed (.jmp 0xFC00) = true ∧ Instr.wellFormed (.jmp 1023) = true ∧
    Instr.wellFormed (.brnzp 0xFF00) = true ∧ Instr.wellFormed (.const 7 255) = true ∧
    Instr.wellFormed (.addi 1 2 0xFFF0) = true ∧ fetchForbidden busy.pc busy.psr = none := by
  decide

/-- For EveryStepKeepsTheInvariant and the statements about a step that answers a next state. -/
theorem witness_step_next :
    (busy.Inv ∧ ∃ t, step busy = .next t) ∧
    ((lowly 0xF0FF).Inv ∧ ∃ t, step (lowly 0xF0FF) = .next t) :=
  ⟨⟨busy_inv, _, rfl⟩, ⟨lowly_inv, _, rfl⟩⟩

/-- For StepRunsTheDecodedInstruction. -/
theorem witness_fetch_and_decode :
    fetchForbidden busy.pc busy.psr = none ∧ decode (busy.mem.readWord busy.pc) = .add 1 2 3 := by
  decide

/-- For FetchFaultsExactlyAtForbiddenAddresses: the edges of the three ranges, in both modes. -/
theorem witness_fetch_edges :
    fetchForbidden 0x7FFF 0x8000 = some .cond2 ∧ fetchForbidden 0x8000 0x8000 = none ∧
    fetchForbidden 0x8000 0x7FFF = some .cond1 ∧ fetchForbidden 0x2000 0x8000 = some .cond2 ∧
    fetchForbidden 0x1FFF 0x0000 = none ∧ fetchForbidden 0x9FFF 0x8000 = none ∧
    fetchForbidden 0xA000 0x8000 = some .cond3 ∧ fetchForbidden 0xFFFF 0x8000 = some .cond3 := by
  decide

/-- For OnlyProtectionFaultsExist, each of its four cases and two conditions at once, and for StepIsAllOrNothing and
FaultStopsTheRunWithItsStateAndNoLine. -/
theorem witness_step_faults :
    (start 0x5000 0x8000 [] [] 0).pc ≠ 0x80FF ∧
    faults (step (start 0x8000 0x7FFF [] [] 0)) (.fetchProtection 0x8000 .cond1) = true ∧
    faults (step (start 0xA000 0x0000 [] [] 0)) (.fetchProtection 0xA000 .cond1) = true ∧
    faults (step (start 0x7FFF 0x8000 [] [] 0)) (.fetchProtection 0x7FFF .cond2) = true ∧
    faults (step (start 0xA000 0x8000 [] [] 0)) (.fetchProtection 0xA000 .cond3) = true ∧
    faults (step (lowly 0x6300)) (.dataProtection 0x8000 0x1FFF) = true ∧
    faults (step (lowly 0x7300)) (.dataProtection 0x8000 0x1FFF) = true := by
  decide

/-- For StepIsAllOrNothing's clauses on what is applied: a register and a code, and a store. -/
theorem witness_applied :
    nextWith (step busy) (fun t => t.snap.regWE && t.snap.nzpWE) = true ∧
    nextWith (step (lowly 0x7280)) (fun t => t.snap.dmemWE) = true := by
  decide

/-- For ShiftsNeverReachTheWidth: a word of each shift, at the amounts 15 and 0. -/
theorem witness_shifts :
    decode 0xA28F = .sll 1 2 15 ∧ decode 0xA29F = .sra 1 2 15 ∧ decode 0xA2AF = .srl 1 2 15 ∧
    decode 0xA280 = .sll 1 2 0 := by
  decide

/-- For EveryParameterSettingGivesAMachine: a fetch that is allowed and one that is not, a step that goes on from a
state with the invariant under other values, and a halt address. -/
theorem witness_parameters :
    fetchForbidden busy.pc busy.psr = none ∧ fetchForbidden 0xA000 busy.psr ≠ none ∧
    nextWith (stepWith silentLink busy) (fun _ => true) = true ∧ busy.Inv ∧
    (start 0x80FF 0x8000 [] [] 0x9005).pc = silentLink.haltPc :=
  ⟨by decide, by decide, by decide, busy_inv, by decide⟩

/-- For StepRefusesExactlyUnassignedOpcodes. -/
theorem witness_step_refuses : refuses (step (lowly 0xBFFF)) (.unassignedOpcode 0xBFFF) = true := by decide

/-- For StepRecordsPreUpdatePcAndPostUpdateValues: a register and a code, a load, a store. -/
theorem witness_records :
    nextWith (step busy) (fun t => t.snap.regWE && t.snap.nzpWE) = true ∧
    nextWith (step (lowly 0x6280)) (fun t => t.snap.dmemValue == 0xBEEF) = true ∧ (decode 0x6280).family = .load ∧
    nextWith (step (lowly 0x7280)) (fun t => t.snap.dmemValue == 0xFFFF) = true ∧ (decode 0x7280).family = .store := by
  decide

/-- For SnapshotFieldsAreZeroUnlessWritten and FlagWritesReplaceTheCodeByAOneHotCode. -/
theorem witness_nothing_written :
    nextWith (step (lowly 0xC1C0)) (fun t => !t.snap.regWE && !t.snap.nzpWE) = true ∧ (decode 0xC1C0).family = .jump ∧
    nextWith (step (lowly 0xF0FF)) (fun t => t.snap.nzpWE) = true := by
  decide

/-- For LinkingInstructionsRecordRegisterSeven. -/
theorem witness_links :
    nextWith (step (lowly 0x4FFF)) (fun t => t.snap.regWE) = true ∧ (decode 0x4FFF).family = .call ∧
    nextWith (step (lowly 0xF0FF)) (fun t => t.snap.regWE) = true ∧ (decode 0xF0FF).family = .trap := by
  decide

/-- For ConditionCodeOfAResult: the edges of its three cases. -/
theorem witness_codes :
    (0x8000 ≤ u 0x8000 ∧ 0x8000 ≤ u 0xFFFF) ∧ u 0 = 0 ∧ (1 ≤ u 1 ∧ u 1 < 0x8000) ∧ (1 ≤ u 0x7FFF ∧ u 0x7FFF < 0x8000) := by
  decide

/-- For FlagsAreReadOnlyByBranches and OnlyLoadsAndStoresTouchMemory. -/
theorem witness_families :
    Instr.family (.add 1 2 3) ≠ .branch ∧ Instr.family (.add 1 2 3) ≠ .load ∧ Instr.family (.add 1 2 3) ≠ .store ∧
    Instr.family (.trap 0xFF) ≠ .branch := by
  decide

/-- For the division statements: a divisor that is not 0, the divisor 0, and both under other parameters. -/
theorem witness_divisors :
    busy.reg 1 ≠ 0 ∧ busy.reg 3 = 0 ∧ signedDivision.divmodSigned = true ∧ zeroDivision.div0 = .lc4Zero := by
  decide

/-- For CompareUnsignedImmediateUsesItsFinalComputation: the parameter, and operands on both sides of 0x8000. -/
theorem witness_cmpiu : signedFinal.cmpiuFinal = .signed ∧ busy.reg 1 = 0xFFFF ∧ busy.reg 2 = 0x7FFF := by decide

/-- For StallRetiresWithoutMoving and UnassignedOpcodesAreRefused. -/
theorem witness_policies :
    faulting.hiconst0Policy = .fault ∧ faulting.unassignedPolicy = .fault ∧ stalling.unassignedPolicy = .stall := by
  decide

/-- For StalledMachineNeverMoves. -/
theorem witness_stall :
    (lowly 0xD2AB).pc ≠ 0x80FF ∧ fetchForbidden (lowly 0xD2AB).pc (lowly 0xD2AB).psr = none ∧
    decode ((lowly 0xD2AB).mem.readWord (lowly 0xD2AB).pc) = .hiconstStall 1 0xAB := by
  decide

/-- For ComposedConstantSurvivesStoreAndLoad, AllowedLoadsComplete and AllowedStoresComplete: the highest user data
address in user mode, and the address above it in supervisor mode. -/
theorem witness_allowed_data :
    (u (lowly 0).psr < 0x8000 ∧ u (effectiveAddress ((lowly 0).reg 2) 0) = 0x7FFF) ∧
    (0x8000 ≤ u busy.psr ∧ u (effectiveAddress (busy.reg 2) 1) = 0x8000) ∧ (1 : RegIdx) ≠ 2 := by
  decide

/-- For UserAccessAbove7FFFFaults: the lowest protected address and the highest. -/
theorem witness_forbidden_data :
    u (lowly 0).psr < 0x8000 ∧ u (effectiveAddress ((lowly 0).reg 2) 1) = 0x8000 ∧
    u (effectiveAddress ((lowly 0).reg 1) 0) = 0xFFFF := by
  decide

/-- For StoreIsSeenByTheNextFetch: a store to the next word, and one elsewhere. -/
theorem witness_store_ahead :
    nextWith (exec (.str 1 4 0) (start 0x7FFF 0x8000 [(1, 0x9005), (4, 0x8000)] [] 0x7300))
      (fun t => t.pc == effectiveAddress 0x8000 0) = true ∧
    nextWith (exec (.str 1 2 0) (lowly 0x7280)) (fun t => t.pc != effectiveAddress 0x7FFF 0) = true := by
  decide

/-- For OnlyTrapAndReturnChangeTheMode: TRAP, RTI and another instruction. -/
theorem witness_modes :
    nextWith (step (lowly 0xF0FF)) (fun t => privBit t.psr == 1) = true ∧ (decode 0xF0FF).family = .trap ∧
    nextWith (step (start 0x8200 0x8004 [(7, 5)] [] 0x8000)) (fun t => privBit t.psr == 0) = true ∧
    (decode 0x8000).family = .returnFromTrap ∧
    nextWith (step busy) (fun t => privBit t.psr == 1) = true ∧ (decode 0x1283).family = .arithmetic := by
  decide

/-- For UserStepsKeepProtectedMemory. -/
theorem witness_user_store :
    u (lowly 0x7280).psr < 0x8000 ∧ nextWith (step (lowly 0x7280)) (fun _ => true) = true ∧ 0x8000 ≤ u 0x8000 := by
  decide

/-- A user state with another word at 0x8000. -/
def otherAbove : State := { lowly 0x6280 with mem := (lowly 0x6280).mem.writeWord 0x8000 0x1234 }

/-- For UserStepsAreBlindToProtectedMemory: two states that differ, and only from 0x8000 up. -/
theorem witness_agree_for_user :
    u (lowly 0x6280).psr < 0x8000 ∧ AgreeForUser (lowly 0x6280) otherAbove ∧ lowly 0x6280 ≠ otherAbove := by
  refine ⟨by decide, ⟨rfl, rfl, rfl, rfl, rfl, rfl, ?_⟩, by decide⟩
  intro a ha
  have hne : a ≠ 0x8000 := by
    rintro rfl
    exact absurd ha (by decide)
  have hc := Memory.cells_ne hne
  show Memory.readWord ((lowly 0x6280).mem.writeWord 0x8000 0x1234) a = Memory.readWord (lowly 0x6280).mem a
  unfold Memory.readWord
  rw [Memory.readByte_writeWord_of_ne _ _ _ hc.2.2.1 hc.2.2.2, Memory.readByte_writeWord_of_ne _ _ _ hc.1 hc.2.1]

/-- For TraceLineTellsEveryField: two records that differ (in a source index, no field of the line), one line. -/
theorem witness_equal_lines :
    traceLine ⟨0x8200, 0x9005, { Snapshot.cleared with rsIdx := 1 }⟩ = traceLine ⟨0x8200, 0x9005, Snapshot.cleared⟩ ∧
    ({ Snapshot.cleared with rsIdx := 1 } : Snapshot) ≠ Snapshot.cleared :=
  ⟨rfl, by decide⟩

/-- For HaltAddressIsNeverExecuted. -/
theorem witness_halt : (start 0x80FF 0x8000 [] [] 0x9005).pc = 0x80FF := by decide

/-- For OneTraceRecordPerRetiredStep's second clause. -/
theorem witness_step_limit : (drive 0x80FF 2 busy).ending = .stepLimit ∧ (drive 0x80FF 2 busy).trace.length = 2 := by
  decide

/-- For SegmentLoadsItsWords: a segment that ends at 0xFFFF, and one that runs past it. -/
theorem witness_segments :
    isHeader 0xDECA = true ∧ isHeader 0xDADA = true ∧ (0xFFFE : Word).toNat + [1, 2].length ≤ 65536 ∧
    65536 < (0xFFFF : Word).toNat + [1, 2].length := by
  decide

/-- For LoadingChangesOnlyMemory. -/
theorem witness_load :
    nextWith (loadFiles [[0xDE, 0xCA, 0x82, 0x00, 0x00, 0x01, 0x90, 0x05]] busy) (fun t => t.pc == busy.pc) = true ∧
    busy.mem.wf = true := by
  decide

end Sys2Proof.Tests
end

/-! The statements about the state: its reset values (R34) and its condition code (R30). -/

namespace Sys2Proof.Machine

/-! ## Reset -/

/-- No register is special at reset (R34). -/
theorem reset_reg (r : RegIdx) : State.reset.reg r = 0 :=
  Vector.getElem_replicate _

/-- The reset memory lists no cell, so both bytes of a word are the unlisted one (R34, R350). -/
theorem reset_readWord (a : Word) : State.reset.mem.readWord a = 0 := by
  have hmem : State.reset.mem = [] := rfl
  rw [hmem, Memory.readWord, Memory.readByte_nil, Memory.readByte_nil]
  decide

/-- Settles O7: the pc, the psr and the snapshot are literals of the reset state; registers and memory by
`reset_reg` and `reset_readWord`. -/
theorem resetValues : Obligations.ResetValues :=
  ⟨rfl, rfl, reset_reg, reset_readWord, rfl⟩

/-! ## The condition code -/

/-- A step that answers a next state is an instruction's change of the state, then its trace record. -/
theorem step_next_changes {s t : State} (h : step s = .next t) :
    ∃ t', Changes (decode (fetchWord s)) s t' ∧ t = retire s.pc (fetchWord s) t' := by
  obtain ⟨-, t', hexec, hretire⟩ := step_eq_next h
  exact ⟨t', exec_changes hexec, hretire.symm⟩

/-- A step writes the code of some exact value and records the write, or keeps the code and records none (R106). -/
theorem step_next_code {s t : State} (h : step s = .next t) :
    (t.snap.nzpWE = true ∧ ∃ z, nzp t.psr = nzpOf z) ∨ (t.snap.nzpWE = false ∧ nzp t.psr = nzp s.psr) := by
  obtain ⟨t', hchanges, rfl⟩ := step_next_changes h
  rcases hchanges.code with ⟨hwe, -, hz⟩ | hkept
  · exact .inl ⟨hwe, hz⟩
  · exact .inr ⟨hkept.snap.1, hkept.code⟩

/-- Settles O21: by the two things a step can do to the code; a written code is nzpOf's, so one-hot. -/
theorem flagWritesReplaceTheCodeByAOneHotCode : Obligations.FlagWritesReplaceTheCodeByAOneHotCode := by
  refine ⟨by decide, fun s t h => ?_⟩
  rcases step_next_code h with ⟨hwe, z, hz⟩ | ⟨hwe, hkept⟩
  · exact ⟨by simp [hwe], fun _ => hz ▸ nzpOf_cases z⟩
  · exact ⟨fun _ => hkept, by simp [hwe]⟩

end Sys2Proof.Machine

/-! The statement about fetch permission (R57), from what a step's faults can be. -/

namespace Sys2Proof.Machine

/-- The data check before an access that completes stops in one way only (R240, R301). -/
theorem guardData_next_eq_fault {ea : Word} {s t : State} {f : Fault} :
    guardData ea s (.next t) = .fault f ↔ dataAllowed ea s.psr = false ∧ f = .dataProtection ea s.pc := by
  cases h : dataAllowed ea s.psr with
  | false => simp [guardData_forbidden s h, eq_comm]
  | true => simp [guardData_allowed s h]

/-- Everything an instruction's fault can be: the data check of an LDR or STR that refuses (R240, R305). The other
fault, `illegal`, belongs to policies that are not the defaults (R247, R265). -/
theorem exec_eq_fault {i : Instr} {s : State} {f : Fault} (h : exec i s = .fault f) :
    ∃ r a off, (i = .ldr r a off ∨ i = .str r a off) ∧
      dataAllowed (effectiveAddress (s.reg a) off) s.psr = false ∧
      f = .dataProtection (effectiveAddress (s.reg a) off) s.pc := by
  cases exec_case i s with
  | load d a off hi hr => exact ⟨d, a, off, .inl hi, guardData_next_eq_fault.1 (hr.symm.trans h)⟩
  | store b a off hi hr => exact ⟨b, a, off, .inr hi, guardData_next_eq_fault.1 (hr.symm.trans h)⟩
  | illegal hf hr =>
    rcases hf with ⟨-, hunassigned⟩ | ⟨-, hhiconst0⟩
    · exact absurd hunassigned (by decide)
    · exact absurd hhiconst0 (by decide)
  | result _ _ _ hr | compare _ _ hr | control _ _ hr | call _ _ hr | trap _ _ hr | ret _ hr
  | unassigned _ _ hr | stalled _ _ hr => cases hr.symm.trans h

/-- A step answers a fetch fault exactly when the fetch check names a condition: no instruction answers one. -/
theorem step_fetchProtection_iff (s : State) :
    (∃ c, step s = .fault (.fetchProtection s.pc c)) ↔ fetchForbidden s.pc s.psr ≠ none := by
  rcases step_cases s with ⟨c, hc, hs⟩ | ⟨hn, hs⟩
  · exact ⟨fun _ => by simp [hc], fun _ => ⟨c, hs⟩⟩
  · refine ⟨fun ⟨c, hfault⟩ => ?_, fun h => absurd hn h⟩
    obtain ⟨_, _, _, -, -, hdata⟩ := exec_eq_fault (onNext_eq_fault.1 (hs.symm.trans hfault))
    cases hdata

/-- Settles O13: a fetch fault is the fetch check's alone, and the check names a condition when one of R57's holds. -/
theorem fetchFaultsExactlyAtForbiddenAddresses : Obligations.FetchFaultsExactlyAtForbiddenAddresses := by
  intro s
  rw [step_fetchProtection_iff, Ne, fetchForbidden_eq_none, ← not_or, ← not_or, not_not]

end Sys2Proof.Machine

/-! The statements about what a retired step applies and records (R105, R112), from what an instruction changes. -/

namespace Sys2Proof.Machine

/-! ## A word read after a word write -/

/-- A word is its two bytes (log 1). -/
theorem extractLsb'_high_append_low (v : Word) : v.extractLsb' 8 8 ++ v.extractLsb' 0 8 = v := by
  rw [BitVec.extractLsb'_append_extractLsb'_eq_extractLsb' (by rfl), BitVec.extractLsb'_eq_self]

/-- A word read after a word write: the written word at its address, the old word elsewhere (R53). -/
theorem Memory.readWord_writeWord (m : Memory) (a b v : Word) :
    (m.writeWord a v).readWord b = if b = a then v else m.readWord b := by
  unfold Memory.readWord
  split
  · next h =>
    subst h
    have hcells : Memory.lowCell b ≠ Memory.highCell b := by simp [Memory.lowCell, Memory.highCell]
    rw [Memory.writeWord, Memory.readByte_writeByte, if_pos rfl, Memory.readByte_writeByte, if_neg hcells,
      Memory.readByte_writeByte, if_pos rfl, extractLsb'_high_append_low]
  · next h =>
    obtain ⟨hll, hlh, hhl, hhh⟩ := Memory.cells_ne h
    rw [Memory.readByte_writeWord_of_ne m a v hll hlh, Memory.readByte_writeWord_of_ne m a v hhl hhh]

/-! ## What the record says of an instruction's changes -/

section
variable {i : Instr} {s t : State} (h : Changes i s t)
include h

theorem Changes.recorded_reg (hwe : t.snap.regWE = true) : t.snap.regValue = t.reg t.snap.rd := by
  rcases h.reg with ⟨-, hvalue, -⟩ | hnone
  · exact hvalue
  · exact absurd hnone.snap.1 (by simp [hwe])

theorem Changes.reg_recorded_or_kept (r : RegIdx) : (t.snap.regWE = true ∧ r = t.snap.rd) ∨ t.reg r = s.reg r := by
  rcases h.reg with ⟨hwe, -, hothers⟩ | hnone
  · by_cases hr : r = t.snap.rd
    · exact .inl ⟨hwe, hr⟩
    · exact .inr (hothers r hr)
  · exact .inr (hnone.regs r)

theorem Changes.recorded_code (hwe : t.snap.nzpWE = true) : t.snap.nzpValue = nzp t.psr := by
  rcases h.code with ⟨-, hvalue, -⟩ | hkept
  · exact hvalue
  · exact absurd hkept.snap.1 (by simp [hwe])

theorem Changes.code_recorded_or_kept : t.snap.nzpWE = true ∨ nzp t.psr = nzp s.psr := by
  rcases h.code with ⟨hwe, -, -⟩ | hkept
  · exact .inl hwe
  · exact .inr hkept.code

theorem Changes.priv_kept_unless : i.family = .trap ∨ i.family = .returnFromTrap ∨ privBit t.psr = privBit s.psr := by
  rcases h.priv with ⟨htrap, -⟩ | ⟨hret, -⟩ | ⟨-, -, hkept⟩
  · exact .inl htrap
  · exact .inr (.inl hret)
  · exact .inr (.inr hkept)

theorem Changes.dmemWE_iff : t.snap.dmemWE = true ↔ i.family = .store := by
  rcases h.mem with ⟨b, a, off, rfl, -, -, hwe, -, -⟩ | ⟨-, hne, hwe, -⟩
  · exact iff_of_true hwe rfl
  · exact iff_of_false (by simp [hwe]) hne

/-- A recorded store is an STR's: its data register's word, now held at its effective address (R242). -/
theorem Changes.recorded_store (hwe : t.snap.dmemWE = true) : ∃ b a off, i = .str b a off ∧
    t.snap.dmemAddr = effectiveAddress (s.reg a) off ∧ t.snap.dmemValue = s.reg b ∧
    t.mem.readWord t.snap.dmemAddr = t.snap.dmemValue := by
  rcases h.mem with ⟨b, a, off, hi, -, hmem, -, haddr, hvalue⟩ | ⟨-, -, hno, -⟩
  · exact ⟨b, a, off, hi, haddr, hvalue, by rw [hmem, haddr, hvalue, Memory.readWord_writeWord, if_pos rfl]⟩
  · exact absurd hno (by simp [hwe])

theorem Changes.byte_recorded_or_kept (k : Nat) :
    (t.snap.dmemWE = true ∧ (k = Memory.lowCell t.snap.dmemAddr ∨ k = Memory.highCell t.snap.dmemAddr)) ∨
    t.mem.readByte k = s.mem.readByte k := by
  rcases h.mem with ⟨b, a, off, -, -, hmem, hwe, haddr, -⟩ | ⟨hmem, -⟩
  · by_cases hk : k = Memory.lowCell t.snap.dmemAddr ∨ k = Memory.highCell t.snap.dmemAddr
    · exact .inl ⟨hwe, hk⟩
    · rw [haddr, not_or] at hk
      exact .inr (hmem ▸ Memory.readByte_writeWord_of_ne _ _ _ hk.1 hk.2)
  · exact .inr (by rw [hmem])

/-- A load or a store records the word its address now holds (R32, R112). -/
theorem Changes.recorded_data (hf : i.family = .load ∨ i.family = .store) :
    t.snap.dmemValue = t.mem.readWord t.snap.dmemAddr := by
  rcases h.mem with ⟨_, _, _, rfl, -, -, hwe, -, -⟩ | ⟨-, hstore, -, ⟨-, hload⟩ | ⟨hload, -⟩⟩
  · obtain ⟨_, _, _, -, -, -, hstored⟩ := h.recorded_store hwe
    exact hstored.symm
  · exact hload
  · exact absurd hf (by simp [hload, hstore])

end

/-- Settles O16: `retire` records the address and the word, and every other recorded field is an instruction's own. -/
theorem stepRecordsPreUpdatePcAndPostUpdateValues : Obligations.StepRecordsPreUpdatePcAndPostUpdateValues := by
  intro s t h
  obtain ⟨t', hchanges, rfl⟩ := step_next_changes h
  exact ⟨rfl, hchanges.recorded_reg, hchanges.recorded_code, hchanges.recorded_data⟩

/-- A run that meets a fault at its first turn is left in the state before it, halted or not (R303, R356). -/
theorem drive_state_of_fault {s : State} {f : Fault} (h : Word) (n : Nat) (hfault : step s = .fault f) :
    (drive h (n + 1) s).state = s := by
  unfold drive
  by_cases hpc : s.pc = h
  · rw [driveBy_of_halt step (n + 1) hpc]
  · rw [driveBy_of_fault n hpc hfault]

/-- Settles O17: a retired step's writes are its instruction's, which `retire` leaves as they are; a fault's state by
`drive_state_of_fault`. -/
theorem stepIsAllOrNothing : Obligations.StepIsAllOrNothing := by
  refine ⟨fun s t h => ?_, fun s f h n hfault => drive_state_of_fault h n hfault⟩
  obtain ⟨-, t', hexec, rfl⟩ := step_eq_next h
  have hchanges := exec_changes hexec
  exact ⟨⟨t', hexec, rfl, rfl, rfl, rfl⟩, fun hwe => (hchanges.recorded_reg hwe).symm, hchanges.reg_recorded_or_kept,
    fun hwe => (hchanges.recorded_code hwe).symm, hchanges.code_recorded_or_kept, hchanges.dmemWE_iff,
    hchanges.recorded_store, hchanges.byte_recorded_or_kept, hchanges.priv_kept_unless, hchanges.reserved⟩

end Sys2Proof.Machine

/-! The statement that only branches read the condition code (R108): a code put in before an instruction is the code
after it, unless the instruction writes one. -/

namespace Sys2Proof.Machine

/-- The state with its condition code replaced. -/
def withCode (c : BitVec 3) (s : State) : State := { s with psr := withNzp s.psr c }

/-- The state with the code `c` unless its snapshot records a flag write. -/
def fillCode (c : BitVec 3) (t : State) : State := if t.snap.nzpWE then t else withCode c t

section
variable (c : BitVec 3) (s : State)

/-! ## What an instruction reads of a state with another code -/

@[simp] theorem withCode_reg (r : RegIdx) : (withCode c s).reg r = s.reg r := rfl
@[simp] theorem withCode_mem : (withCode c s).mem = s.mem := rfl
@[simp] theorem fillCode_pcNext : (fillCode c s).pcNext = s.pcNext := by unfold fillCode; split <;> rfl

theorem dataAllowed_withNzp (ea psr : Word) : dataAllowed ea (withNzp psr c) = dataAllowed ea psr := by
  simp [dataAllowed, cond1Holds]

/-! ## What a write does to it -/

/-- A cleared snapshot records no flag write, so a code put in stands. -/
@[simp] theorem clearSnap_withCode : clearSnap (withCode c s) = fillCode c (clearSnap s) := rfl

variable {c s} in
/-- A write that neither records a flag write nor sees the code leaves the code to be filled in. -/
theorem map_fillCode {f : State → State} (hwe : (f s).snap.nzpWE = s.snap.nzpWE)
    (hcode : f (withCode c s) = withCode c (f s)) : f (fillCode c s) = fillCode c (f s) := by
  unfold fillCode
  rw [hwe]
  split
  · rfl
  · exact hcode

@[simp] theorem setPc_fillCode (v : Word) : setPc v (fillCode c s) = fillCode c (setPc v s) := map_fillCode rfl rfl

@[simp] theorem advancePc_fillCode : advancePc (fillCode c s) = fillCode c (advancePc s) := map_fillCode rfl rfl

@[simp] theorem writeReg_fillCode (d : RegIdx) (v : Word) :
    writeReg d v (fillCode c s) = fillCode c (writeReg d v s) := map_fillCode rfl rfl

@[simp] theorem recordData_fillCode (we : Bool) (a v : Word) :
    recordData we a v (fillCode c s) = fillCode c (recordData we a v s) := map_fillCode rfl rfl

@[simp] theorem storeWord_fillCode (a v : Word) : storeWord a v (fillCode c s) = fillCode c (storeWord a v s) :=
  map_fillCode rfl rfl

@[simp] theorem setPriv_fillCode (b : BitVec 1) : setPriv b (fillCode c s) = fillCode c (setPriv b s) :=
  map_fillCode rfl (by simp [setPriv, withCode, withPriv_withNzp])

/-- A written code replaces the one put in and is recorded, so it stands (R30). -/
@[simp] theorem setCode_fillCode (k : BitVec 3) : setCode k (fillCode c s) = fillCode c (setCode k s) := by
  have hwritten : fillCode c (setCode k s) = setCode k s := if_pos rfl
  rw [hwritten, fillCode]
  split
  · rfl
  · simp [setCode, withCode]

@[simp] theorem setNzp_fillCode (v : Word) : setNzp v (fillCode c s) = fillCode c (setNzp v s) := setCode_fillCode c s _

@[simp] theorem setNzpCmp_fillCode (z : Int) : setNzpCmp z (fillCode c s) = fillCode c (setNzpCmp z s) :=
  setCode_fillCode c s _

@[simp] theorem link_fillCode (p : Config) : link p (fillCode c s) = fillCode c (link p s) := by
  unfold link; split <;> simp

/-! ## The shared effects -/

theorem writeResult_withCode (d : RegIdx) (v : Word) :
    writeResult d v (withCode c s) = onNext (fillCode c) (writeResult d v s) := by simp [writeResult]

theorem compareResult_withCode (z : Int) :
    compareResult z (withCode c s) = onNext (fillCode c) (compareResult z s) := by simp [compareResult]

theorem jumpTo_withCode (target : Word) :
    jumpTo target (withCode c s) = onNext (fillCode c) (jumpTo target s) := by simp [jumpTo]

theorem callTo_withCode (p : Config) (target : Word) :
    callTo p target (withCode c s) = onNext (fillCode c) (callTo p target s) := by simp [callTo]

theorem takeTrap_withCode (p : Config) (vec : BitVec 8) :
    takeTrap p vec (withCode c s) = fillCode c (takeTrap p vec s) := by simp [takeTrap]

theorem returnFromTrap_withCode : returnFromTrap (withCode c s) = fillCode c (returnFromTrap s) := by
  simp [returnFromTrap]

theorem loadFrom_withCode (d : RegIdx) (ea : Word) :
    loadFrom d ea (withCode c s) = onNext (fillCode c) (loadFrom d ea s) := by simp [loadFrom]

theorem storeTo_withCode (ea v : Word) :
    storeTo ea v (withCode c s) = onNext (fillCode c) (storeTo ea v s) := by simp [storeTo]

/-- The data check sees the privilege bit only (R58). -/
theorem guardData_withCode (ea : Word) {k k' : Answer} (hk : k' = onNext (fillCode c) k) :
    guardData ea (withCode c s) k' = onNext (fillCode c) (guardData ea s k) := by
  have hallowed : dataAllowed ea (withCode c s).psr = dataAllowed ea s.psr := dataAllowed_withNzp c ea s.psr
  unfold guardData
  rw [hallowed, hk]
  split <;> rfl

/-- An instruction outside the branch family does not read the code: by the shared effect that each is. -/
theorem exec_withCode (i : Instr) (hf : i.family ≠ .branch) :
    exec i (withCode c s) = onNext (fillCode c) (exec i s) := by
  cases i with
  | nop | brp | brz | brzp | brn | brnp | brnz | brnzp => exact absurd rfl hf
  | add | mul | sub | div | addi | and | not | or | xor | andi | const | sll | sra | srl | mod | hiconst =>
    exact writeResult_withCode c s _ _
  | cmp | cmpu | cmpi | cmpiu => exact compareResult_withCode c s _
  | jmpr | jmp => exact jumpTo_withCode c s _
  | hiconstStall => exact jumpTo_withCode c s s.pc
  | jsrr | jsr => exact callTo_withCode c s _ _
  | ldr => exact guardData_withCode c s _ (loadFrom_withCode c s _ _)
  | str => exact guardData_withCode c s _ (storeTo_withCode c s _ _)
  | rti => exact congrArg Host.Outcome.next (returnFromTrap_withCode c s)
  | trap vec => exact congrArg Host.Outcome.next (takeTrap_withCode c s config vec)
  | unassigned0011 | unassigned1011 | unassigned1110 => rfl

end

/-- Settles O22: `exec_withCode`, with the two states by their names. -/
theorem flagsAreReadOnlyByBranches : Obligations.FlagsAreReadOnlyByBranches :=
  fun i c s hf => exec_withCode c s i hf

end Sys2Proof.Machine

/-! The statements about what the trace shows: the fields of nothing written (R323), the link's register (R324), and a
fault, which leaves no line (R303). -/

namespace Sys2Proof.Machine

/-! ## What the record says where an instruction writes nothing -/

section
variable {i : Instr} {s t : State} (h : Changes i s t)
include h

theorem Changes.reg_fields_zero (hwe : t.snap.regWE = false) : t.snap.rd = 0 ∧ t.snap.regValue = 0 := by
  rcases h.reg with ⟨hwritten, -, -⟩ | hnone
  · exact absurd hwritten (by simp [hwe])
  · exact hnone.snap.2

theorem Changes.code_field_zero (hwe : t.snap.nzpWE = false) : t.snap.nzpValue = 0 := by
  rcases h.code with ⟨hwritten, -, -⟩ | hkept
  · exact absurd hwritten (by simp [hwe])
  · exact hkept.snap.2

theorem Changes.data_fields_zero (hload : i.family ≠ .load) (hstore : i.family ≠ .store) :
    t.snap.dmemAddr = 0 ∧ t.snap.dmemValue = 0 := by
  rcases h.mem with ⟨b, a, off, rfl, -⟩ | ⟨-, -, -, ⟨hisload, -⟩ | ⟨-, hnodata⟩⟩
  · exact absurd rfl hstore
  · exact absurd hisload hload
  · exact hnodata.2

end

/-- Settles O18: `retire` leaves these fields as the instruction's changes have them, and each is 0 where the
instruction wrote nothing. -/
theorem snapshotFieldsAreZeroUnlessWritten : Obligations.SnapshotFieldsAreZeroUnlessWritten := by
  intro s t h
  obtain ⟨t', hchanges, rfl⟩ := step_next_changes h
  exact ⟨hchanges.reg_fields_zero, hchanges.code_field_zero, hchanges.data_fields_zero⟩

/-- Settles O19: a call's or a trap's change records the link in register 7, and `retire` leaves that record. -/
theorem linkingInstructionsRecordRegisterSeven : Obligations.LinkingInstructionsRecordRegisterSeven := by
  intro s t h hfamily
  obtain ⟨t', hchanges, rfl⟩ := step_next_changes h
  exact hchanges.link hfamily

/-! ## The driver at a fault -/

/-- Settles O55: the driver's turn at a fault, for the machine's own step. -/
theorem faultStopsTheRunWithItsStateAndNoLine : Obligations.FaultStopsTheRunWithItsStateAndNoLine :=
  fun _ n _ _ hpc hfault => driveBy_of_fault n hpc hfault

end Sys2Proof.Machine

/-! The statements about the encoding (R70 to R90): decoding an encoded instruction, and encoding a decoded word. -/

namespace Sys2Proof

/-! ## Decoding an encoded instruction -/

/-- A signed immediate in its field's range is given back by its own low bits (R85). -/
theorem sext_extract_of_fitsSigned {n : Nat} (hn : 0 < n) (hn16 : n ≤ 16) {v : Word} (h : fitsSigned n v = true) :
    sext (v.extractLsb' 0 n) = v :=
  sext_field_of_fitsSigned hn hn16 v h

/-- An encoded instruction is a concatenation, so that every field the decoder reads is one of its parts, or the low
bits of a signed immediate. -/
theorem decode_encode (i : Instr) (h : i.wellFormed = true) : decode (encode i) = i := by
  cases i with
  | nop imm | brp imm | brz imm | brzp imm | brn imm | brnp imm | brnz imm | brnzp imm | addi d s imm | andi d s imm
  | ldr d s imm | str t s imm | const d imm | jmp imm =>
    have himm := sext_extract_of_fitsSigned (by decide) (by decide) h
    simp (disch := decide) only [decode, decodeBranch, decodeArithmetic, decodeLogical, decodeJump, encode, encodeBr,
      encodeRRI5, encodeMem, fieldOp, fieldD, fieldS, field, BitVec.extractLsb'_append_eq_of_le,
      BitVec.extractLsb'_append_eq_of_add_le, BitVec.extractLsb'_eq_self, Nat.reduceSub, BitVec.ofNat_eq_ofNat, if_true,
      himm]
  | add | mul | sub | div | cmp | cmpu | cmpi | cmpiu | jsrr | jsr | and | not | or | xor | rti | sll | sra | srl | mod
  | jmpr | hiconst | hiconstStall | trap | unassigned0011 | unassigned1011 | unassigned1110 =>
    simp (disch := decide) only [decode, decodeArithmetic, decodeCompare, decodeCall, decodeLogical, decodeShift,
      decodeJump, decodeHiconst, encode, encodeRRR, encodeShift, fieldOp, fieldD, fieldS, fieldT, field,
      BitVec.extractLsb'_append_eq_of_le, BitVec.extractLsb'_append_eq_of_add_le, BitVec.extractLsb'_eq_self,
      Nat.reduceSub, BitVec.ofNat_eq_ofNat, BitVec.reduceExtractLsb', BitVec.reduceEq, if_true, if_false]

/-- Settles O1: `decode_encode`. -/
theorem decodeOfEncode : Obligations.DecodeOfEncode := decode_encode

/-! ## A word is its fields, format by format (R73 to R84) -/

section
variable (w : Word)

theorem fields_br : fieldOp w ++ field w 9 3 ++ field w 0 9 = w := by
  simp (disch := decide) only [fieldOp, field, BitVec.extractLsb'_append_extractLsb'_eq_extractLsb',
    BitVec.extractLsb'_eq_self]

theorem fields_rrr : fieldOp w ++ fieldD w ++ fieldS w ++ (field w 5 1 ++ field w 3 2) ++ fieldT w = w := by
  simp (disch := decide) only [fieldOp, fieldD, fieldS, fieldT, field,
    BitVec.extractLsb'_append_extractLsb'_eq_extractLsb', BitVec.extractLsb'_eq_self]

theorem fields_rri5 : fieldOp w ++ fieldD w ++ fieldS w ++ field w 5 1 ++ field w 0 5 = w := by
  simp (disch := decide) only [fieldOp, fieldD, fieldS, field, BitVec.extractLsb'_append_extractLsb'_eq_extractLsb',
    BitVec.extractLsb'_eq_self]

theorem fields_cmpi : fieldOp w ++ fieldD w ++ field w 7 2 ++ field w 0 7 = w := by
  simp (disch := decide) only [fieldOp, fieldD, field, BitVec.extractLsb'_append_extractLsb'_eq_extractLsb',
    BitVec.extractLsb'_eq_self]

theorem fields_jsr : fieldOp w ++ field w 11 1 ++ field w 0 11 = w := by
  simp (disch := decide) only [fieldOp, field, BitVec.extractLsb'_append_extractLsb'_eq_extractLsb',
    BitVec.extractLsb'_eq_self]

theorem fields_mem : fieldOp w ++ fieldD w ++ fieldS w ++ field w 0 6 = w := by
  simp (disch := decide) only [fieldOp, fieldD, fieldS, field, BitVec.extractLsb'_append_extractLsb'_eq_extractLsb',
    BitVec.extractLsb'_eq_self]

theorem fields_shift : fieldOp w ++ fieldD w ++ fieldS w ++ field w 4 2 ++ field w 0 4 = w := by
  simp (disch := decide) only [fieldOp, fieldD, fieldS, field, BitVec.extractLsb'_append_extractLsb'_eq_extractLsb',
    BitVec.extractLsb'_eq_self]

theorem fields_hiconst : fieldOp w ++ fieldD w ++ field w 8 1 ++ field w 0 8 = w := by
  simp (disch := decide) only [fieldOp, fieldD, field, BitVec.extractLsb'_append_extractLsb'_eq_extractLsb',
    BitVec.extractLsb'_eq_self]

theorem fields_unassigned : fieldOp w ++ field w 0 12 = w := by
  simp (disch := decide) only [fieldOp, field, BitVec.extractLsb'_append_extractLsb'_eq_extractLsb',
    BitVec.extractLsb'_eq_self]

/-! ### With the ignored bits cleared (R87) -/

variable {w} in
/-- A word is another one with a mask's bits kept when it is so bit by bit. -/
theorem eq_and_of_bits {v m : Word} (h : ∀ k < 16, v.getLsbD k = (w.getLsbD k && m.getLsbD k)) : v = w &&& m :=
  BitVec.eq_of_getLsbD_eq fun k hk => (h k hk).trans BitVec.getLsbD_and.symm

theorem fields_cmp : fieldOp w ++ fieldD w ++ field w 7 2 ++ 0b0000#4 ++ fieldT w = w &&& 0xFF87 := by
  refine eq_and_of_bits fun k hk => ?_
  simp only [fieldOp, fieldD, fieldT, field, BitVec.getLsbD_append, BitVec.getLsbD_extractLsb']
  interval_cases k <;> simp

theorem fields_jump : fieldOp w ++ field w 11 1 ++ 0b00#2 ++ fieldS w ++ 0b000000#6 = w &&& 0xF9C0 := by
  refine eq_and_of_bits fun k hk => ?_
  simp only [fieldOp, fieldS, field, BitVec.getLsbD_append, BitVec.getLsbD_extractLsb']
  interval_cases k <;> simp

theorem fields_not : fieldOp w ++ fieldD w ++ fieldS w ++ (field w 5 1 ++ field w 3 2) ++ 0b000#3 = w &&& 0xFFF8 := by
  refine eq_and_of_bits fun k hk => ?_
  simp only [fieldOp, fieldD, fieldS, field, BitVec.getLsbD_append, BitVec.getLsbD_extractLsb']
  interval_cases k <;> simp

theorem fields_rti : fieldOp w ++ 0#12 = w &&& 0xF000 := by
  refine eq_and_of_bits fun k hk => ?_
  simp only [fieldOp, field, BitVec.getLsbD_append, BitVec.getLsbD_extractLsb']
  interval_cases k <;> simp

theorem fields_mod : fieldOp w ++ fieldD w ++ fieldS w ++ field w 4 2 ++ 0b0#1 ++ fieldT w = w &&& 0xFFF7 := by
  refine eq_and_of_bits fun k hk => ?_
  simp only [fieldOp, fieldD, fieldS, fieldT, field, BitVec.getLsbD_append, BitVec.getLsbD_extractLsb']
  interval_cases k <;> simp

theorem fields_trap : fieldOp w ++ 0b0000#4 ++ field w 0 8 = w &&& 0xF0FF := by
  refine eq_and_of_bits fun k hk => ?_
  simp only [fieldOp, field, BitVec.getLsbD_append, BitVec.getLsbD_extractLsb']
  interval_cases k <;> simp

/-- No bit of the word is ignored. -/
theorem and_allUsed : w &&& 0xFFFF = w := BitVec.and_allOnes

end

/-! ## The last arms of the decoder's matches -/

theorem eq_three_of_ne {v : BitVec 2} (h0 : v = 0b00#2 → False) (h1 : v = 0b01#2 → False) (h2 : v = 0b10#2 → False) :
    v = 0b11#2 := by
  revert v; decide

theorem eq_zero_of_ne_one {v : BitVec 1} (h : ¬ v = 1) : v = 0b0#1 := by
  revert v; decide

/-! ## Encoding a decoded word -/

section
variable {w : Word}

theorem encode_decodeBranch (hop : fieldOp w = 0b0000#4) :
    encode (decodeBranch w) = w &&& (decodeBranch w).usedBits := by
  have hmask : encode (decodeBranch w) = encodeBr (field w 9 3) (sext (field w 0 9)) := by
    unfold decodeBranch
    split
    case h_8 =>
      have hlast : field w 9 3 = 0b111#3 := by
        generalize field w 9 3 = mask at *
        revert mask
        decide
      rw [hlast]
      rfl
    all_goals next h => rw [h]; rfl
  have hused : (decodeBranch w).usedBits = 0xFFFF := by
    unfold decodeBranch
    split <;> rfl
  rw [hmask, hused, and_allUsed, encodeBr, field_sext (by decide), ← hop, fields_br]

theorem encode_decodeArithmetic (hop : fieldOp w = 0b0001#4) :
    encode (decodeArithmetic w) = w &&& (decodeArithmetic w).usedBits := by
  have himm := fields_rri5 w
  have hw := fields_rrr w
  unfold decodeArithmetic
  split
  · next h5 =>
    rw [hop, h5] at himm
    rwa [encode, encodeRRI5, field_sext (by decide), Instr.usedBits, and_allUsed]
  · next h5 =>
    rw [hop, eq_zero_of_ne_one h5] at hw
    split
    · next h => rw [h] at hw; rwa [Instr.usedBits, and_allUsed]
    · next h => rw [h] at hw; rwa [Instr.usedBits, and_allUsed]
    · next h => rw [h] at hw; rwa [Instr.usedBits, and_allUsed]
    · next h0 h1 h2 => rw [eq_three_of_ne h0 h1 h2] at hw; rwa [Instr.usedBits, and_allUsed]

theorem encode_decodeCompare (hop : fieldOp w = 0b0010#4) :
    encode (decodeCompare w) = w &&& (decodeCompare w).usedBits := by
  have hreg := fields_cmp w
  have himm := fields_cmpi w
  rw [hop] at hreg himm
  unfold decodeCompare
  split
  · next h => rwa [h] at hreg
  · next h => rwa [h] at hreg
  · next h => rw [h] at himm; rwa [Instr.usedBits, and_allUsed]
  · next h0 h1 h2 => rw [eq_three_of_ne h0 h1 h2] at himm; rwa [Instr.usedBits, and_allUsed]

theorem encode_decodeCall (hop : fieldOp w = 0b0100#4) :
    encode (decodeCall w) = w &&& (decodeCall w).usedBits := by
  have himm := fields_jsr w
  have hreg := fields_jump w
  rw [hop] at himm hreg
  unfold decodeCall
  split
  · next h => rw [h] at himm; rwa [Instr.usedBits, and_allUsed]
  · next h => rwa [eq_zero_of_ne_one h] at hreg

theorem encode_decodeLogical (hop : fieldOp w = 0b0101#4) :
    encode (decodeLogical w) = w &&& (decodeLogical w).usedBits := by
  have himm := fields_rri5 w
  have hw := fields_rrr w
  have hnot := fields_not w
  unfold decodeLogical
  split
  · next h5 =>
    rw [hop, h5] at himm
    rwa [encode, encodeRRI5, field_sext (by decide), Instr.usedBits, and_allUsed]
  · next h5 =>
    rw [hop, eq_zero_of_ne_one h5] at hw hnot
    split
    · next h => rw [h] at hw; rwa [Instr.usedBits, and_allUsed]
    · next h => rwa [h] at hnot
    · next h => rw [h] at hw; rwa [Instr.usedBits, and_allUsed]
    · next h0 h1 h2 => rw [eq_three_of_ne h0 h1 h2] at hw; rwa [Instr.usedBits, and_allUsed]

theorem encode_decodeShift (hop : fieldOp w = 0b1010#4) :
    encode (decodeShift w) = w &&& (decodeShift w).usedBits := by
  have hw := fields_shift w
  have hmod := fields_mod w
  rw [hop] at hw hmod
  unfold decodeShift
  split
  · next h => rw [h] at hw; rwa [Instr.usedBits, and_allUsed]
  · next h => rw [h] at hw; rwa [Instr.usedBits, and_allUsed]
  · next h => rw [h] at hw; rwa [Instr.usedBits, and_allUsed]
  · next h0 h1 h2 => rwa [eq_three_of_ne h0 h1 h2] at hmod

theorem encode_decodeJump (hop : fieldOp w = 0b1100#4) :
    encode (decodeJump w) = w &&& (decodeJump w).usedBits := by
  have hoff := fields_jsr w
  have hreg := fields_jump w
  rw [hop] at hoff hreg
  unfold decodeJump
  split
  · next h => rw [h] at hoff; rwa [encode, field_sext (by decide), Instr.usedBits, and_allUsed]
  · next h => rwa [eq_zero_of_ne_one h] at hreg

theorem encode_decodeHiconst (hop : fieldOp w = 0b1101#4) :
    encode (decodeHiconst w) = w &&& (decodeHiconst w).usedBits := by
  have hw := fields_hiconst w
  rw [hop] at hw
  unfold decodeHiconst
  split
  · next h => rw [h] at hw; rwa [Instr.usedBits, and_allUsed]
  · next h => rw [eq_zero_of_ne_one h] at hw; rwa [Instr.usedBits, and_allUsed]

variable (w)

/-- Encoding a decoded word clears the bits its instruction ignores: by the word's opcode, format by format. -/
theorem encode_decode : encode (decode w) = w &&& (decode w).usedBits := by
  have hlow := fields_unassigned w
  have himm := fields_br w
  have hmem := fields_mem w
  unfold decode
  split
  · next hop => exact encode_decodeBranch hop
  · next hop => exact encode_decodeArithmetic hop
  · next hop => exact encode_decodeCompare hop
  · next hop => rw [hop] at hlow; rwa [Instr.usedBits, and_allUsed]
  · next hop => exact encode_decodeCall hop
  · next hop => exact encode_decodeLogical hop
  · next hop => rw [hop] at hmem; rwa [encode, encodeMem, field_sext (by decide), Instr.usedBits, and_allUsed]
  · next hop => rw [hop] at hmem; rwa [encode, encodeMem, field_sext (by decide), Instr.usedBits, and_allUsed]
  · next hop => rw [encode, Instr.usedBits, ← fields_rti, hop]
  · next hop => rw [hop] at himm; rwa [encode, field_sext (by decide), Instr.usedBits, and_allUsed]
  · next hop => exact encode_decodeShift hop
  · next hop => rw [hop] at hlow; rwa [Instr.usedBits, and_allUsed]
  · next hop => exact encode_decodeJump hop
  · next hop => exact encode_decodeHiconst hop
  · next hop => rw [hop] at hlow; rwa [Instr.usedBits, and_allUsed]
  · rw [encode, Instr.usedBits, ← fields_trap]
    have hop : fieldOp w = 0b1111#4 := by
      clear hlow himm hmem
      generalize fieldOp w = op at *
      revert op
      decide
    rw [hop]

end

/-- Settles O3: `encode_decode`. -/
theorem encodeOfDecodeClearsIgnoredBits : Obligations.EncodeOfDecodeClearsIgnoredBits := encode_decode

/-! ## The decoder's immediates (R85) and families (R71) -/

section
variable (w : Word)

theorem wellFormed_decodeBranch : (decodeBranch w).wellFormed = true := by
  unfold decodeBranch
  split <;> exact fitsSigned_sext (by decide) (by decide) _

theorem wellFormed_decodeArithmetic : (decodeArithmetic w).wellFormed = true := by
  unfold decodeArithmetic
  split
  · exact fitsSigned_sext (by decide) (by decide) _
  · split <;> rfl

theorem wellFormed_decodeCompare : (decodeCompare w).wellFormed = true := by
  unfold decodeCompare
  split <;> rfl

theorem wellFormed_decodeCall : (decodeCall w).wellFormed = true := by
  unfold decodeCall
  split <;> rfl

theorem wellFormed_decodeLogical : (decodeLogical w).wellFormed = true := by
  unfold decodeLogical
  split
  · exact fitsSigned_sext (by decide) (by decide) _
  · split <;> rfl

theorem wellFormed_decodeShift : (decodeShift w).wellFormed = true := by
  unfold decodeShift
  split <;> rfl

theorem wellFormed_decodeJump : (decodeJump w).wellFormed = true := by
  unfold decodeJump
  split
  · exact fitsSigned_sext (by decide) (by decide) _
  · rfl

theorem wellFormed_decodeHiconst : (decodeHiconst w).wellFormed = true := by
  unfold decodeHiconst
  split <;> rfl

/-- Every signed immediate the decoder delivers is a sign-extended field. -/
theorem wellFormed_decode : (decode w).wellFormed = true := by
  unfold decode
  split
  · exact wellFormed_decodeBranch w
  · exact wellFormed_decodeArithmetic w
  · exact wellFormed_decodeCompare w
  · rfl
  · exact wellFormed_decodeCall w
  · exact wellFormed_decodeLogical w
  · exact fitsSigned_sext (by decide) (by decide) _
  · exact fitsSigned_sext (by decide) (by decide) _
  · rfl
  · exact fitsSigned_sext (by decide) (by decide) _
  · exact wellFormed_decodeShift w
  · rfl
  · exact wellFormed_decodeJump w
  · exact wellFormed_decodeHiconst w
  · rfl
  · rfl

theorem family_decodeBranch : (decodeBranch w).family = .branch := by
  unfold decodeBranch
  split <;> rfl

theorem family_decodeArithmetic : (decodeArithmetic w).family = .arithmetic := by
  unfold decodeArithmetic
  split
  · rfl
  · split <;> rfl

theorem family_decodeCompare : (decodeCompare w).family = .compare := by
  unfold decodeCompare
  split <;> rfl

theorem family_decodeCall : (decodeCall w).family = .call := by
  unfold decodeCall
  split <;> rfl

theorem family_decodeLogical : (decodeLogical w).family = .logical := by
  unfold decodeLogical
  split
  · rfl
  · split <;> rfl

theorem family_decodeShift : (decodeShift w).family = .shiftModulo := by
  unfold decodeShift
  split <;> rfl

theorem family_decodeJump : (decodeJump w).family = .jump := by
  unfold decodeJump
  split <;> rfl

theorem family_decodeHiconst : (decodeHiconst w).family = .constHigh := by
  unfold decodeHiconst
  split <;> rfl

/-- The entry of R71's table at an opcode. -/
def familyOfOpcode (op : BitVec 4) : Option Family :=
  [Family.branch, .arithmetic, .compare, .unassigned, .call, .logical, .load, .store, .returnFromTrap, .constLow,
    .shiftModulo, .unassigned, .jump, .constHigh, .unassigned, .trap][op.toNat]?

theorem familyOfOpcode_fieldOp : familyOfOpcode (fieldOp w) = some (decode w).family := by
  unfold decode
  split
  · next hop => rw [hop, family_decodeBranch]; rfl
  · next hop => rw [hop, family_decodeArithmetic]; rfl
  · next hop => rw [hop, family_decodeCompare]; rfl
  · next hop => rw [hop]; rfl
  · next hop => rw [hop, family_decodeCall]; rfl
  · next hop => rw [hop, family_decodeLogical]; rfl
  · next hop => rw [hop]; rfl
  · next hop => rw [hop]; rfl
  · next hop => rw [hop]; rfl
  · next hop => rw [hop]; rfl
  · next hop => rw [hop, family_decodeShift]; rfl
  · next hop => rw [hop]; rfl
  · next hop => rw [hop, family_decodeJump]; rfl
  · next hop => rw [hop, family_decodeHiconst]; rfl
  · next hop => rw [hop]; rfl
  · have hop : fieldOp w = 0b1111#4 := by
      generalize fieldOp w = op at *
      revert op
      decide
    rw [hop]; rfl

theorem toNat_fieldOp : (fieldOp w).toNat = w.toNat / 4096 := by
  have := w.isLt
  rw [fieldOp, field, BitVec.extractLsb'_toNat, Nat.shiftRight_eq_div_pow]
  omega

end

/-- Settles O2: `wellFormed_decode`. -/
theorem decodeGivesAWellFormedInstruction : Obligations.DecodeGivesAWellFormedInstruction := wellFormed_decode

/-- Settles O5: `familyOfOpcode_fieldOp`, the opcode being the word divided by 4096. -/
theorem topFourBitsSelectTheFamily : Obligations.TopFourBitsSelectTheFamily := by
  intro w
  rw [← toNat_fieldOp]
  exact familyOfOpcode_fieldOp w

/-! ## The opcode table -/

/-- The word of every instruction lies in the row with its mnemonic (R71). -/
theorem encode_in_own_row (i : Instr) : Laws.EncodesInRow.Statement i := by
  cases i with
  | nop off => exact Laws.EncodesInRow.nop off
  | brp off => exact Laws.EncodesInRow.brp off
  | brz off => exact Laws.EncodesInRow.brz off
  | brzp off => exact Laws.EncodesInRow.brzp off
  | brn off => exact Laws.EncodesInRow.brn off
  | brnp off => exact Laws.EncodesInRow.brnp off
  | brnz off => exact Laws.EncodesInRow.brnz off
  | brnzp off => exact Laws.EncodesInRow.brnzp off
  | add d s t => exact Laws.EncodesInRow.add d s t
  | mul d s t => exact Laws.EncodesInRow.mul d s t
  | sub d s t => exact Laws.EncodesInRow.sub d s t
  | div d s t => exact Laws.EncodesInRow.div d s t
  | addi d s imm => exact Laws.EncodesInRow.addi d s imm
  | cmp s t => exact Laws.EncodesInRow.cmp s t
  | cmpu s t => exact Laws.EncodesInRow.cmpu s t
  | cmpi s imm => exact Laws.EncodesInRow.cmpi s imm
  | cmpiu s uimm => exact Laws.EncodesInRow.cmpiu s uimm
  | jsrr s => exact Laws.EncodesInRow.jsrr s
  | jsr imm => exact Laws.EncodesInRow.jsr imm
  | and d s t => exact Laws.EncodesInRow.and d s t
  | not d s => exact Laws.EncodesInRow.not d s
  | or d s t => exact Laws.EncodesInRow.or d s t
  | xor d s t => exact Laws.EncodesInRow.xor d s t
  | andi d s imm => exact Laws.EncodesInRow.andi d s imm
  | ldr d s off => exact Laws.EncodesInRow.ldr d s off
  | str t s off => exact Laws.EncodesInRow.str t s off
  | rti => exact Laws.EncodesInRow.rti
  | const d imm => exact Laws.EncodesInRow.const d imm
  | sll d s k => exact Laws.EncodesInRow.sll d s k
  | sra d s k => exact Laws.EncodesInRow.sra d s k
  | srl d s k => exact Laws.EncodesInRow.srl d s k
  | mod d s t => exact Laws.EncodesInRow.mod d s t
  | jmpr s => exact Laws.EncodesInRow.jmpr s
  | jmp off => exact Laws.EncodesInRow.jmp off
  | hiconst d uimm => exact Laws.EncodesInRow.hiconst d uimm
  | hiconstStall d low => exact Laws.EncodesInRow.hiconstStall d low
  | trap vec => exact Laws.EncodesInRow.trap vec
  | unassigned0011 low => exact Laws.EncodesInRow.unassigned0011 low
  | unassigned1011 low => exact Laws.EncodesInRow.unassigned1011 low
  | unassigned1110 low => exact Laws.EncodesInRow.unassigned1110 low

/-- The 40 mnemonics differ. -/
theorem mnemonics_nodup : (opcodeTable.map OpcodeRow.mnemonic).Nodup := by decide

/-- Two different rows fix some bit that both fix differently. -/
theorem rows_disjoint : ∀ r ∈ opcodeTable, ∀ r' ∈ opcodeTable, r ≠ r' →
    r.pattern &&& r'.mask ≠ r'.pattern &&& r.mask := by decide

/-- Two rows that hold of one word agree on every bit that both fix. -/
theorem eq_of_holds {r r' : OpcodeRow} {w : Word} (hr : r ∈ opcodeTable) (hr' : r' ∈ opcodeTable)
    (h : r.holds w = true) (h' : r'.holds w = true) : r = r' := by
  by_contra hne
  rw [OpcodeRow.holds, beq_iff_eq] at h h'
  apply rows_disjoint r hr r' hr' hne
  rw [← h, ← h', BitVec.and_assoc, BitVec.and_assoc, BitVec.and_comm r.mask]

/-- A row's fixed bits are used bits of its instruction. -/
theorem mask_and_usedBits (i : Instr) :
    ∀ r ∈ opcodeTable, r.mnemonic = i.mnemonic → i.usedBits &&& r.mask = r.mask := by
  cases i <;> (simp only [Instr.mnemonic, Instr.usedBits]; decide)

/-- A word lies in the row of the instruction it decodes to, since encoding that instruction keeps its used bits. -/
theorem own_row (w : Word) : ∃ r ∈ opcodeTable, r.mnemonic = (decode w).mnemonic ∧ r.holds w = true := by
  obtain ⟨r, hr, hname, hholds⟩ := encode_in_own_row (decode w)
  refine ⟨r, hr, hname, ?_⟩
  rwa [OpcodeRow.holds, encode_decode, BitVec.and_assoc, mask_and_usedBits (decode w) r hr hname] at hholds

/-- Settles O4: a word lies in its own row (`own_row`); two rows with a common word are one (`eq_of_holds`), and so
are two with one mnemonic. -/
theorem everyWordMatchesExactlyItsOwnRow : Obligations.EveryWordMatchesExactlyItsOwnRow := by
  refine ⟨mnemonics_nodup, fun w => ?_⟩
  obtain ⟨own, hmem, hname, hholds⟩ := own_row w
  refine ⟨⟨own, hmem, hholds⟩, fun r hr => ⟨fun h => ?_, fun h => ?_⟩⟩
  · rw [eq_of_holds hr hmem h hholds, hname]
  · rwa [List.inj_on_of_nodup_map mnemonics_nodup hr hmem (h.trans hname.symm)]

/-! ## Example words -/

/-- Settles O6: the decoder computes each example of the spec. -/
theorem writtenOutWordsDecode : Obligations.WrittenOutWordsDecode := by
  unfold Obligations.WrittenOutWordsDecode
  decide

end Sys2Proof

/-! The statements about the invariant: it holds at reset, and every step under any parameters keeps it. -/

namespace Sys2Proof.Machine

/-- A fetch that the check allows is from an address some mode may fetch from (R55, R57). -/
theorem fetchable_of_allowed {pc psr : Word} (h : fetchForbidden pc psr = none) : fetchable pc = true := by
  obtain ⟨-, h2, h3⟩ := (fetchForbidden_eq_none pc psr).1 h
  have := pc.isLt
  simp only [u] at h2 h3
  simp only [fetchable, decide_eq_true_eq]
  omega

section
variable {i : Instr} {s t : State} (h : Changes i s t)
include h

theorem Changes.wf_mem (hwf : s.mem.wf = true) : t.mem.wf = true := by
  rcases h.mem with ⟨_, _, _, -, -, hmem, -⟩ | ⟨hmem, -⟩
  · rw [hmem]
    exact Memory.wf_writeWord _ _ _ hwf
  · rwa [hmem]

theorem Changes.code_legal (hcode : nzp s.psr = 0 ∨ oneHot (nzp s.psr) = true) :
    nzp t.psr = 0 ∨ oneHot (nzp t.psr) = true := by
  rcases h.code with ⟨-, -, z, hz⟩ | hkept
  · rw [hz]
    rcases nzpOf_cases z with hc | hc | hc <;> exact .inr (hc ▸ by decide)
  · rwa [hkept.code]

theorem Changes.code_field : t.snap.nzpValue = if t.snap.nzpWE then nzp t.psr else 0 := by
  cases hwe : t.snap.nzpWE
  · exact h.code_field_zero hwe
  · exact h.recorded_code hwe

/-- An instruction's changes and the record of a fetchable address keep the invariant. -/
theorem Changes.inv_retire {pc w : Word} (hpc : fetchable pc = true) (hs : s.Inv) : (retire pc w t).Inv where
  memory := h.wf_mem hs.memory
  reserved := h.reserved.trans hs.reserved
  code := h.code_legal hs.code
  regFields := h.reg_fields_zero
  codeField := h.code_field
  retiredAt := by
    rintro r ⟨⟩
    exact hpc

end

/-- A step under any parameters keeps the invariant. -/
theorem stepWith_keeps_inv {c : Config} {s t : State} (hs : s.Inv) (h : stepWith c s = .next t) : t.Inv := by
  obtain ⟨hallowed, t', hexec, rfl⟩ := stepWith_eq_next h
  exact (execWith_changes hexec).inv_retire (fetchable_of_allowed hallowed) hs

/-- Settles O10: `stepWith_keeps_inv` at the machine's own parameters. -/
theorem everyStepKeepsTheInvariant : Obligations.EveryStepKeepsTheInvariant :=
  fun s _ hs h => stepWith_keeps_inv hs ((stepWith_config s).trans h)

/-- Settles O9: every clause is about literals of the reset state, and nothing is retired. -/
theorem resetMeetsTheInvariant : Obligations.ResetMeetsTheInvariant where
  memory := Memory.wf_reset
  reserved := by decide
  code := .inl (by decide)
  regFields := fun _ => ⟨rfl, rfl⟩
  codeField := rfl
  retiredAt := nofun

end Sys2Proof.Machine

/-! The statements about what memory an instruction can see: none but loads and stores see any, and a user-mode step
sees nothing from 0x8000 up. -/

namespace Sys2Proof.Machine

/-- The state with another memory. -/
def withMem (m : Memory) (s : State) : State := { s with mem := m }

section
variable (m : Memory) (s : State)

@[simp] theorem withMem_mem : (withMem m s).mem = m := rfl
@[simp] theorem withMem_reg (r : RegIdx) : (withMem m s).reg r = s.reg r := rfl

theorem branch_withMem (mask : BitVec 3) (off : Word) :
    branch mask off (withMem m s) = onNext (withMem m) (branch mask off s) := by
  have hpsr : (withMem m s).psr = s.psr := rfl
  unfold branch
  rw [hpsr]
  split <;> rfl

/-- An instruction that is no load and no store neither reads the memory nor writes it. -/
theorem exec_withMem (i : Instr) (hload : i.family ≠ .load) (hstore : i.family ≠ .store) :
    exec i (withMem m s) = onNext (withMem m) (exec i s) := by
  cases i with
  | ldr => exact absurd rfl hload
  | str => exact absurd rfl hstore
  | brp | brz | brzp | brn | brnp | brnz | brnzp => exact branch_withMem m s _ _
  | nop | add | mul | sub | div | addi | cmp | cmpu | cmpi | cmpiu | jsrr | jsr | and | not | or | xor | andi | rti
  | const | sll | sra | srl | mod | jmpr | jmp | hiconst | hiconstStall | trap | unassigned0011 | unassigned1011
  | unassigned1110 => rfl

end

/-- Settles O46: `exec_withMem`, with the two states by their names. -/
theorem onlyLoadsAndStoresTouchMemory : Obligations.OnlyLoadsAndStoresTouchMemory :=
  fun i m s hload hstore => exec_withMem m s i hload hstore

/-! ## Two user states that agree below 0x8000 -/

/-- The memories hold the same words below 0x8000. -/
def AgreeBelow (m m' : Memory) : Prop := ∀ a : Word, a.toNat < 0x8000 → m'.readWord a = m.readWord a

/-- The one thing in which agreeing states differ is the memory. -/
theorem AgreeForUser.eq_withMem {s s' : State} (h : AgreeForUser s s') : s' = withMem s'.mem s := by
  obtain ⟨hpc, hregs, hpsr, hsnap, hretired, hdraws, -⟩ := h
  cases s'
  subst hpc hregs hpsr hsnap hretired hdraws
  rfl

theorem agreeForUser_withMem {s : State} {m : Memory} (h : AgreeBelow s.mem m) : AgreeForUser s (withMem m s) :=
  ⟨rfl, rfl, rfl, rfl, rfl, rfl, h⟩

/-- One word written in both memories. -/
theorem AgreeBelow.writeWord {m m' : Memory} (h : AgreeBelow m m') (a v : Word) :
    AgreeBelow (m.writeWord a v) (m'.writeWord a v) := by
  intro b hb
  rw [Memory.readWord_writeWord, Memory.readWord_writeWord, h b hb]

/-- A data address that the check allows in user mode is below 0x8000 (R58). -/
theorem toNat_lt_of_dataAllowed {ea psr : Word} (huser : u psr < 0x8000) (h : dataAllowed ea psr = true) :
    ea.toNat < 0x8000 := by
  rw [dataAllowed_iff] at h
  simp only [u] at huser h
  omega

/-- A fetch that the check allows in user mode is from below 0x8000 (R57). -/
theorem toNat_lt_of_fetchAllowed {pc psr : Word} (huser : u psr < 0x8000) (h : fetchForbidden pc psr = none) :
    pc.toNat < 0x8000 := by
  obtain ⟨h1, -, -⟩ := (fetchForbidden_eq_none pc psr).1 h
  simp only [u] at huser h1
  omega

section
variable {s : State} {m : Memory}

/-- A load of a word that both memories hold. -/
theorem loadFrom_withMem (d : RegIdx) {ea : Word} (h : m.readWord ea = s.mem.readWord ea) :
    loadFrom d ea (withMem m s) = onNext (withMem m) (loadFrom d ea s) := by
  unfold loadFrom
  rw [withMem_mem, h]
  rfl

/-- The same data check, then answers that agree where it allows. -/
theorem guardData_agree (ea : Word) {k k' : Answer}
    (hk : dataAllowed ea s.psr = true → SameAnswer AgreeForUser k k') :
    SameAnswer AgreeForUser (guardData ea s k) (guardData ea (withMem m s) k') := by
  have hpsr : (withMem m s).psr = s.psr := rfl
  cases h : dataAllowed ea s.psr with
  | false => rw [guardData_forbidden s h, guardData_forbidden _ (hpsr ▸ h)]; rfl
  | true => rw [guardData_allowed s h, guardData_allowed _ (hpsr ▸ h)]; exact hk h

variable (hm : AgreeBelow s.mem m)
include hm

theorem load_agree (d : RegIdx) {ea : Word} (hea : ea.toNat < 0x8000) :
    SameAnswer AgreeForUser (loadFrom d ea s) (loadFrom d ea (withMem m s)) := by
  rw [loadFrom_withMem d (hm ea hea)]
  exact agreeForUser_withMem hm

theorem store_agree (ea v : Word) : SameAnswer AgreeForUser (storeTo ea v s) (storeTo ea v (withMem m s)) :=
  agreeForUser_withMem (hm.writeWord ea v)

theorem exec_agree_of_no_access (i : Instr) (hload : i.family ≠ .load) (hstore : i.family ≠ .store) :
    SameAnswer AgreeForUser (exec i s) (exec i (withMem m s)) := by
  rw [exec_withMem m s i hload hstore]
  cases hexec : exec i s with
  | fault | refused => rfl
  | next t =>
    rcases (exec_changes hexec).mem with ⟨_, _, _, rfl, -⟩ | ⟨hmem, -⟩
    · exact absurd rfl hstore
    · exact agreeForUser_withMem (hmem ▸ hm)

/-- In user mode an instruction answers alike in two agreeing states: a load or a store by its data check, any other
because it sees no memory. -/
theorem exec_agree (huser : u s.psr < 0x8000) (i : Instr) :
    SameAnswer AgreeForUser (exec i s) (exec i (withMem m s)) := by
  by_cases hload : i.family = .load
  · cases i with
    | ldr d a off => exact guardData_agree _ fun hallowed => load_agree hm d (toNat_lt_of_dataAllowed huser hallowed)
    | _ => cases hload
  by_cases hstore : i.family = .store
  · cases i with
    | str b a off => exact guardData_agree _ fun _ => store_agree hm _ _
    | _ => cases hstore
  exact exec_agree_of_no_access hm i hload hstore

end

theorem agreeForUser_retire {t t' : State} (h : AgreeForUser t t') (pc w : Word) :
    AgreeForUser (retire pc w t) (retire pc w t') := by
  rw [h.eq_withMem]
  exact agreeForUser_withMem h.memory

theorem sameAnswer_onNext {R : State → State → Prop} {f : State → State} (hf : ∀ t t', R t t' → R (f t) (f t')) :
    ∀ {a a' : Answer}, SameAnswer R a a' → SameAnswer R (onNext f a) (onNext f a')
  | .next t, .next t', h => hf t t' h
  | .fault _, .fault _, h => h
  | .refused _, .refused _, h => h

/-- Settles O52: the fetch check is the same, an allowed fetch is from below 0x8000, and then `exec_agree`. -/
theorem userStepsAreBlindToProtectedMemory : Obligations.UserStepsAreBlindToProtectedMemory := by
  intro s s' huser h
  obtain ⟨m, hm, rfl⟩ : ∃ m, AgreeBelow s.mem m ∧ s' = withMem m s := ⟨s'.mem, h.memory, h.eq_withMem⟩
  rcases step_cases s with ⟨c, hc, hs⟩ | ⟨hnone, hs⟩
  · rcases step_cases (withMem m s) with ⟨c', hc', hs'⟩ | ⟨hnone', -⟩
    · rw [hs, hs']
      cases hc.symm.trans hc'
      rfl
    · cases hc.symm.trans hnone'
  · rcases step_cases (withMem m s) with ⟨c', hc', -⟩ | ⟨-, hs'⟩
    · cases hc'.symm.trans hnone
    · have hword : fetchWord (withMem m s) = fetchWord s := hm s.pc (toNat_lt_of_fetchAllowed huser hnone)
      rw [hs, hs', hword]
      exact sameAnswer_onNext (fun _ _ ht => agreeForUser_retire ht _ _) (exec_agree hm huser _)

end Sys2Proof.Machine

/-! The statements about one step: what it runs, how it stops, and what it may change of memory and mode. -/

namespace Sys2Proof.Machine

/-! ## The instruction a step runs (R100) -/

theorem stepBy_of_allowed (run : Instr → State → Answer) {s : State} (h : fetchForbidden s.pc s.psr = none) :
    stepBy run s = onNext (retire s.pc (fetchWord s)) (run (decode (fetchWord s)) s) := by
  rcases stepBy_cases s run with ⟨c, hc, -⟩ | ⟨-, hs⟩
  · cases hc.symm.trans h
  · exact hs

theorem stepBy_of_forbidden (run : Instr → State → Answer) {s : State} {c : FetchCond}
    (h : fetchForbidden s.pc s.psr = some c) : stepBy run s = .fault (.fetchProtection s.pc c) := by
  rcases stepBy_cases s run with ⟨c', hc', hs⟩ | ⟨hnone, -⟩
  · cases hc'.symm.trans h
    exact hs
  · cases hnone.symm.trans h

theorem step_of_allowed {s : State} (h : fetchForbidden s.pc s.psr = none) :
    step s = onNext (retire s.pc (fetchWord s)) (exec (decode (fetchWord s)) s) :=
  stepBy_of_allowed exec h

/-- Settles O11: `step_of_allowed`. -/
theorem stepRunsTheDecodedInstruction : Obligations.StepRunsTheDecodedInstruction := by
  rintro i s h rfl
  exact step_of_allowed h

theorem tableWord_toNat (w : Word) : tableWord 16 w.toNat = w := by
  rw [tableWord, Nat.mod_eq_of_lt w.isLt, BitVec.ofNat_toNat, BitVec.setWidth_eq]

/-- The word placed at the pc is the one fetched (log 22). -/
theorem fetchWord_withFetchWord (s : State) (w : Word) : fetchWord (s.withFetchWord 16 w.toNat) = w := by
  rw [fetchWord, State.withFetchWord, tableWord_toNat, Memory.readWord_writeWord, if_pos rfl]

/-- Settles O12: the placed word is fetched, and decodes to the instruction (`decode_encode`). -/
theorem placedInstructionRunsNext : Obligations.PlacedInstructionRunsNext := by
  intro i s hwf hallowed
  have hword := fetchWord_withFetchWord s (encode i)
  have hpc : (s.withFetchWord 16 (encode i).toNat).pc = s.pc := rfl
  rw [step_of_allowed (hpc.symm ▸ hallowed), hword, decode_encode i hwf, hpc]

/-! ## How a step stops -/

/-- The condition a forbidden fetch names, in the spec's integers: the lowest-numbered one that holds (R101). -/
theorem fetchForbidden_eq_some {pc psr : Word} {c : FetchCond} (h : fetchForbidden pc psr = some c) :
    (u psr < 0x8000 ∧ 0x8000 ≤ u pc ∧ c = .cond1) ∨
    (¬ (u psr < 0x8000 ∧ 0x8000 ≤ u pc) ∧ 0x2000 ≤ u pc ∧ u pc < 0x8000 ∧ c = .cond2) ∨
    (¬ (u psr < 0x8000 ∧ 0x8000 ≤ u pc) ∧ 0xA000 ≤ u pc ∧ c = .cond3) := by
  unfold fetchForbidden at h
  rw [← cond1Holds_iff]
  split at h
  · next h1 =>
    obtain ⟨huser, hpc⟩ := (cond1Holds_iff pc psr).1 h1
    exact .inl ⟨huser, hpc, (Option.some.inj h).symm⟩
  · next h1 =>
    split at h
    · next h2 =>
      obtain ⟨hlow, hhigh⟩ := (cond2Holds_iff pc).1 h2
      exact .inr (.inl ⟨h1, hlow, hhigh, (Option.some.inj h).symm⟩)
    · split at h
      · next h3 => exact .inr (.inr ⟨h1, ((cond3Holds_iff pc).1 h3).1, (Option.some.inj h).symm⟩)
      · cases h

/-- A data access that the check refuses is a user's, at 0x8000 or above (R58). -/
theorem dataAllowed_eq_false {ea psr : Word} : dataAllowed ea psr = false ↔ u psr < 0x8000 ∧ 0x8000 ≤ u ea := by
  rw [← Bool.not_eq_true, dataAllowed_iff]
  omega

/-- Settles O14: a step stops on its fetch check (`fetchForbidden_eq_some`), or with its instruction's fault, which is
a refused data access (`exec_eq_fault`). -/
theorem onlyProtectionFaultsExist : Obligations.OnlyProtectionFaultsExist := by
  intro s f hf
  rcases step_cases s with ⟨c, hc, hs⟩ | ⟨hnone, hs⟩
  · cases hs.symm.trans hf
    rcases fetchForbidden_eq_some hc with ⟨huser, hpc, rfl⟩ | ⟨h1, hlow, hhigh, rfl⟩ | ⟨h1, hlow, rfl⟩
    · exact .inl ⟨huser, hpc, rfl⟩
    · exact .inr (.inl ⟨h1, hlow, hhigh, rfl⟩)
    · exact .inr (.inr (.inl ⟨h1, hlow, rfl⟩))
  · obtain ⟨r, a, off, hi, hdata, hfault⟩ := exec_eq_fault (onNext_eq_fault.1 (hs.symm.trans hf))
    obtain ⟨huser, hea⟩ := dataAllowed_eq_false.1 hdata
    exact .inr (.inr (.inr ⟨hnone, r, a, off, hi, huser, hea, hfault⟩))

/-- Everything an instruction's refusal can be: an opcode of no family, naming its word (R90). -/
theorem exec_eq_refused_iff {i : Instr} {s : State} {r : Refusal} :
    exec i s = .refused r ↔ i.family = .unassigned ∧ r = .unassignedOpcode (encode i) := by
  constructor
  · intro h
    cases exec_case i s with
    | unassigned hf _ hr => exact ⟨hf, (Host.Outcome.refused.inj (hr.symm.trans h)).symm⟩
    | load _ _ _ _ hr | store _ _ _ _ hr =>
      have hguard := hr.symm.trans h
      unfold guardData at hguard
      split at hguard <;> cases hguard
    | result _ _ _ hr | compare _ _ hr | control _ _ hr | call _ _ hr | trap _ _ hr | ret _ hr | stalled _ _ hr
    | illegal _ hr => cases hr.symm.trans h
  · rintro ⟨hf, rfl⟩
    cases i with
    | unassigned0011 | unassigned1011 | unassigned1110 => rfl
    | _ => cases hf

theorem familyOfOpcode_eq_unassigned : ∀ op : BitVec 4,
    familyOfOpcode op = some .unassigned ↔ op.toNat = 3 ∨ op.toNat = 11 ∨ op.toNat = 14 := by
  decide

/-- The words of no family are those of three opcodes (R90). -/
theorem family_decode_eq_unassigned (w : Word) :
    (decode w).family = .unassigned ↔ w.toNat / 4096 = 3 ∨ w.toNat / 4096 = 11 ∨ w.toNat / 4096 = 14 := by
  rw [← toNat_fieldOp, ← familyOfOpcode_eq_unassigned, familyOfOpcode_fieldOp, Option.some_inj]

/-- A word of no family is its instruction's word: it has no ignored bits. -/
theorem encode_decode_of_unassigned {w : Word} (h : (decode w).family = .unassigned) : encode (decode w) = w := by
  have hused : (decode w).usedBits = 0xFFFF := by
    revert h
    cases decode w with
    | unassigned0011 | unassigned1011 | unassigned1110 => exact fun _ => rfl
    | _ => exact nofun
  rw [encode_decode, hused, and_allUsed]

/-- Settles O15: a step refuses when the word it runs does, and that word is of no family. -/
theorem stepRefusesExactlyUnassignedOpcodes : Obligations.StepRefusesExactlyUnassignedOpcodes := by
  intro s r
  rw [← family_decode_eq_unassigned, ← fetchWord]
  rcases step_cases s with ⟨c, hc, hs⟩ | ⟨hnone, hs⟩
  · simp [hs, hc]
  · rw [hs, onNext_eq_refused, exec_eq_refused_iff]
    constructor
    · rintro ⟨hf, rfl⟩
      exact ⟨hnone, hf, by rw [encode_decode_of_unassigned hf]⟩
    · rintro ⟨-, hf, rfl⟩
      exact ⟨hf, by rw [encode_decode_of_unassigned hf]⟩

/-! ## Memory and mode after a step -/

/-- Settles O44: `Memory.readWord_writeWord`. -/
theorem readAfterWrite : Obligations.ReadAfterWrite := Memory.readWord_writeWord

/-- Settles O45: the memory after an STR is the old one with one word written. -/
theorem storeIsSeenByTheNextFetch : Obligations.StoreIsSeenByTheNextFetch := by
  intro b a off s t h
  rcases (exec_changes h).mem with ⟨_, _, _, heq, -, hmem, -⟩ | ⟨-, hne, -⟩
  · cases heq
    rw [fetchWord, hmem, Memory.readWord_writeWord]
  · exact absurd rfl hne

/-- Settles O51: the one word a step may write is an STR's, and a user's is below 0x8000. -/
theorem userStepsKeepProtectedMemory : Obligations.UserStepsKeepProtectedMemory := by
  intro s t huser h a ha
  obtain ⟨t', hchanges, rfl⟩ := step_next_changes h
  rcases hchanges.mem with ⟨b, base, off, -, hallowed, hmem, -⟩ | ⟨hmem, -⟩
  · have hne : a ≠ effectiveAddress (s.reg base) off := by
      rintro rfl
      have := toNat_lt_of_dataAllowed huser hallowed
      simp only [u] at ha
      omega
    rw [retire_mem, hmem, Memory.readWord_writeWord, if_neg hne]
  · rw [retire_mem, hmem]

/-- Settles O50: the three cases of an instruction's change of the privilege bit exclude each other by family. -/
theorem onlyTrapAndReturnChangeTheMode : Obligations.OnlyTrapAndReturnChangeTheMode := by
  intro s t h
  obtain ⟨t', hchanges, rfl⟩ := step_next_changes h
  rcases hchanges.priv with ⟨hf, hpriv⟩ | ⟨hf, hpriv⟩ | ⟨htrap, hret, hpriv⟩
  · exact ⟨fun _ => hpriv, fun hf' => (by cases hf.symm.trans hf'), fun hne => absurd hf hne⟩
  · exact ⟨fun hf' => (by cases hf.symm.trans hf'), fun _ => hpriv, fun _ hne => absurd hf hne⟩
  · exact ⟨fun hf => absurd hf htrap, fun hf => absurd hf hret, fun _ _ => hpriv⟩

end Sys2Proof.Machine

/-! The statements about branches, jumps, calls, traps and returns: the shared effect each instruction is, with its
target in the spec's integers. -/

namespace Sys2Proof.Machine

/-! ## Targets in the spec's integers -/

/-- Patterns with no bit in common: their union is their sum. -/
theorem or_eq_trunc16 {x y : Word} (h : ∀ k < 16, (x.getLsbD k && y.getLsbD k) = false) :
    x ||| y = trunc16 (u x + u y) := by
  have hand : x &&& y = 0 := BitVec.eq_of_getLsbD_eq fun k hk => by
    rw [BitVec.getLsbD_and, h k hk, BitVec.ofNat_eq_ofNat, BitVec.getLsbD_zero]
  rw [trunc16_add, BitVec.add_eq_or_of_and_eq_zero x y hand]

theorem u_zext {n : Nat} (hn : n ≤ 16) (v : BitVec n) : u (zext v) = v.toNat := by
  rw [u, zext, BitVec.toNat_setWidth_of_le hn]

/-- Bit 15 of a word, in its place. -/
theorem u_and_bit15 (v : Word) : u (v &&& 0x8000#16) = if 0x8000 ≤ u v then 0x8000 else 0 := by
  have hmsb : v.toNat.testBit 15 = decide (0x8000 ≤ v.toNat) := BitVec.msb_eq_decide v
  have hand : (v &&& 0x8000#16).toNat = (v.toNat.testBit 15).toNat * 2 ^ 15 := Nat.and_two_pow v.toNat 15
  simp only [u, hand, hmsb]
  by_cases h : 0x8000 ≤ v.toNat
  · simp [h]
  · simp [h]

/-- JSR's target (R206): the shifted immediate has 15 bits. -/
theorem callTarget_eq (pc : Word) (imm : BitVec 11) :
    callTarget pc imm = trunc16 ((if 0x8000 ≤ u pc then 0x8000 else 0) + 16 * (imm.toNat : Int)) := by
  have himm : u (zext imm <<< 4) = 16 * (imm.toNat : Int) := by
    have := imm.isLt
    simp only [u, zext, BitVec.toNat_shiftLeft, Nat.shiftLeft_eq, BitVec.toNat_setWidth]
    omega
  rw [callTarget, or_eq_trunc16, u_and_bit15, himm]
  intro k hk
  simp only [zext, BitVec.getLsbD_and, BitVec.getLsbD_shiftLeft, BitVec.getLsbD_setWidth]
  interval_cases k <;> simp

/-- TRAP's target (R260). -/
theorem trapTarget_eq (vec : BitVec 8) : trapTarget vec = trunc16 (0x8000 + (vec.toNat : Int)) := by
  rw [trapTarget, or_eq_trunc16, u_zext (by decide)]
  · rfl
  · intro k hk
    simp only [zext, BitVec.getLsbD_setWidth]
    interval_cases k <;> simp

/-! ## Branches and jumps -/

/-- A branch whose mask is met as `taken` says (R131). -/
theorem branch_effect {mask : BitVec 3} {s : State} {taken : Bool} (off : Word) (h : branchTaken mask s.psr = taken) :
    Completes (branch mask off s) (ControlEffect (branchPc taken off s) s) := by
  rw [branch, h]
  cases taken with
  | false => exact continueOnly_effect s
  | true => 
    rw [branchPc_eq]
    exact jumpTo_effect s _

/-! Which of N, Z, P each mask tests (R132). -/

theorem mask_p : ∀ c : BitVec 3, (0b001 &&& c != 0) = c.getLsbD 0 := by decide
theorem mask_z : ∀ c : BitVec 3, (0b010 &&& c != 0) = c.getLsbD 1 := by decide
theorem mask_zp : ∀ c : BitVec 3, (0b011 &&& c != 0) = (c.getLsbD 1 || c.getLsbD 0) := by decide
theorem mask_n : ∀ c : BitVec 3, (0b100 &&& c != 0) = c.getLsbD 2 := by decide
theorem mask_np : ∀ c : BitVec 3, (0b101 &&& c != 0) = (c.getLsbD 2 || c.getLsbD 0) := by decide
theorem mask_nz : ∀ c : BitVec 3, (0b110 &&& c != 0) = (c.getLsbD 2 || c.getLsbD 1) := by decide
theorem mask_nzp : ∀ c : BitVec 3, (0b111 &&& c != 0) = (c.getLsbD 2 || c.getLsbD 1 || c.getLsbD 0) := by decide

/-- Settles O23: `branch_effect`, with the flags each mask tests. -/
theorem branchesGoToTheirTarget : Obligations.BranchesGoToTheirTarget := fun off s =>
  ⟨continueOnly_effect s, branch_effect off (mask_p _), branch_effect off (mask_z _), branch_effect off (mask_zp _),
    branch_effect off (mask_n _), branch_effect off (mask_np _), branch_effect off (mask_nz _),
    branch_effect off (mask_nzp _)⟩

/-- Settles O24: both are `jumpTo`. -/
theorem jumpsGoToTheirTarget : Obligations.JumpsGoToTheirTarget := fun a off s =>
  ⟨jumpTo_effect s (s.reg a), trunc16_relative s off ▸ jumpTo_effect s (relativeTarget s off)⟩

/-! ## Calls, traps and returns -/

theorem execJsrWith_effect (c : Config) (imm : BitVec 11) (s : State) : Completes (execJsrWith c imm s)
    (CallEffect c (trunc16 ((if 0x8000 ≤ u s.pc then 0x8000 else 0) + 16 * (imm.toNat : Int))) s) :=
  callTarget_eq s.pc imm ▸ callTo_effect s c (callTarget s.pc imm)

/-- Settles O25: both are `callTo`. -/
theorem callsLinkAndGoToTheirTarget : Obligations.CallsLinkAndGoToTheirTarget := fun a imm s =>
  ⟨callTo_effect s config (s.reg a), execJsrWith_effect config imm s,
    fun c => ⟨callTo_effect s c (s.reg a), execJsrWith_effect c imm s⟩⟩

theorem execTrapWith_effect (c : Config) (vec : BitVec 8) (s : State) :
    Completes (execTrapWith c vec s) (TrapEffect c (trunc16 (0x8000 + (vec.toNat : Int))) s) :=
  ⟨takeTrap c vec s, rfl, trapTarget_eq vec ▸ takeTrap_effect s c vec⟩

/-- Settles O47: `execTrapWith_effect`. -/
theorem trapEntersSupervisorMode : Obligations.TrapEntersSupervisorMode := fun vec s =>
  ⟨execTrapWith_effect config vec s, fun c => execTrapWith_effect c vec s⟩

/-- Settles O48: `returnFromTrap_effect`. -/
theorem returnRestoresOnlyThePc : Obligations.ReturnRestoresOnlyThePc := fun s =>
  ⟨returnFromTrap s, rfl, returnFromTrap_effect s⟩

/-- A clear privilege bit is user mode (R29). -/
theorem u_lt_of_privBit {psr : Word} (h : privBit psr = 0) : u psr < 0x8000 := by
  have huser : userMode psr = true := by rw [userMode_eq, h]; rfl
  simp only [userMode, decide_eq_true_eq] at huser
  simp only [u]
  omega

/-- Settles O49: the effects of TRAP and RTI in turn; RTI's pc is the link that TRAP left in R7. -/
theorem trapThenReturnComesBackInUserMode : Obligations.TrapThenReturnComesBackInUserMode := by
  intro vec s
  have htrap := takeTrap_effect s config vec
  have hret := returnFromTrap_effect (takeTrap config vec s)
  refine ⟨takeTrap config vec s, rfl, returnFromTrap (takeTrap config vec s), rfl, ?_, u_lt_of_privBit hret.priv,
    ?_, ?_⟩
  · rw [hret.pc, htrap.reg.value]
  · intro x hx
    rw [hret.reg.regs, htrap.reg.others x hx]
  · intro k
    rw [hret.mem, htrap.mem]

end Sys2Proof.Machine

/-! The statements about results and comparisons: the ALU's values in the spec's integers, each instruction being
`writeResult` or `compareResult`. -/

namespace Sys2Proof.Machine

/-! ## The condition code of a result (R106) -/

theorem nzpOf_of_pos {z : Int} (h : 0 < z) : nzpOf z = 0b001 := if_pos h

theorem nzpOf_of_neg {z : Int} (h : z < 0) : nzpOf z = 0b100 := by
  rw [nzpOf, if_neg (by omega), if_neg (by omega)]

/-- Settles O20: by the sign that `s(v)` has in each range of `u(v)`. -/
theorem conditionCodeOfAResult : Obligations.ConditionCodeOfAResult := by
  intro v
  have hlt := u_lt v
  rw [sgn_eq]
  refine ⟨fun h => ?_, fun h => ?_, fun hpos h => ?_⟩
  · rw [if_neg (by omega)]
    exact nzpOf_of_neg (by omega)
  · rw [if_pos (by omega), h]
    rfl
  · rw [if_pos h]
    exact nzpOf_of_pos (by omega)

/-! ## Arithmetic -/

/-- Settles O26: bit-vector sum, product and difference are the integers' modulo 2^16. -/
theorem arithmeticResultsWrap : Obligations.ArithmeticResultsWrap := by
  intro d a b imm s
  rw [trunc16_add, trunc16_mul, trunc16_sub, trunc16_add]
  exact ⟨writeResult_effect s d _, writeResult_effect s d _, writeResult_effect s d _, writeResult_effect s d _⟩

section
variable {c : Config} {a b : Word} (draw : Word)

theorem divide_unsigned (hs : c.divmodSigned = false) (hb : b ≠ 0) : divide c draw a b = trunc16 (u a / u b) := by
  rw [divide, if_neg hb, hs]
  exact (BitVec.ofInt_natCast 16 _).symm

theorem modulo_unsigned (hs : c.divmodSigned = false) (hb : b ≠ 0) : modulo c draw a b = trunc16 (u a % u b) := by
  rw [modulo, if_neg hb, hs]
  exact (BitVec.ofInt_natCast 16 _).symm

theorem divide_signed (hs : c.divmodSigned = true) (hb : b ≠ 0) :
    divide c draw a b = trunc16 (Int.tdiv (sgn a) (sgn b)) := by
  rw [divide, if_neg hb, hs]
  rfl

theorem modulo_signed (hs : c.divmodSigned = true) (hb : b ≠ 0) :
    modulo c draw a b = trunc16 (Int.tmod (sgn a) (sgn b)) := by
  rw [modulo, if_neg hb, hs, Int.tmod_def, Int.mul_comm]
  rfl

theorem divide_zero (hb : b = 0) : divide c draw a b = divZeroValue c draw := if_pos hb

theorem modulo_zero (hb : b = 0) : modulo c draw a b = divZeroValue c draw := if_pos hb

theorem divZeroValue_lc4Zero (h : c.div0 = .lc4Zero) : divZeroValue c draw = 0 := by
  rw [divZeroValue, h]

end

/-- DIV and MOD write what the ALU gives. -/
theorem execDivWith_effect {c : Config} {d a b : RegIdx} {s : State} {v : Word}
    (h : divide c (Config.div0Draw s.draws) (s.reg a) (s.reg b) = v) :
    Completes (execDivWith c d a b s) (ResultEffect d v s) :=
  h ▸ writeResult_effect s d _

theorem execModWith_effect {c : Config} {d a b : RegIdx} {s : State} {v : Word}
    (h : modulo c (Config.div0Draw s.draws) (s.reg a) (s.reg b) = v) :
    Completes (execModWith c d a b s) (ResultEffect d v s) :=
  h ▸ writeResult_effect s d _

/-- Settles O27: the unsigned quotient and remainder, the default. -/
theorem divideAndModuloByANonzeroDivisor : Obligations.DivideAndModuloByANonzeroDivisor := fun _ _ _ _ hb =>
  ⟨execDivWith_effect (divide_unsigned _ rfl hb), execModWith_effect (modulo_unsigned _ rfl hb)⟩

/-- Settles O28: the draw, the default. -/
theorem divideAndModuloByZeroWriteTheDraw : Obligations.DivideAndModuloByZeroWriteTheDraw := fun _ _ _ _ hb =>
  ⟨execDivWith_effect (divide_zero _ hb), execModWith_effect (modulo_zero _ hb)⟩

/-- Settles O29: the ALU's values under the two other parameter values. -/
theorem divideAndModuloUnderOtherParameters : Obligations.DivideAndModuloUnderOtherParameters := fun _ _ _ _ _ =>
  ⟨fun hs hb => ⟨execDivWith_effect (divide_signed _ hs hb), execModWith_effect (modulo_signed _ hs hb)⟩,
    fun h0 hb => ⟨execDivWith_effect ((divide_zero _ hb).trans (divZeroValue_lc4Zero _ h0)),
      execModWith_effect ((modulo_zero _ hb).trans (divZeroValue_lc4Zero _ h0))⟩⟩

theorem u_pos {v : Word} (h : v ≠ 0) : 0 < u v := by
  have hne : u v ≠ 0 := fun h0 => h (eq_of_u_eq h0)
  have := u_nonneg v
  omega

/-- A quotient of words, and a remainder, is a word: nothing is cut off. -/
theorem u_trunc16_ediv (a b : Word) : u (trunc16 (u a / u b)) = u a / u b := by
  have hle := Int.ediv_le_self (u b) (u_nonneg a)
  have hnn := Int.ediv_nonneg (u_nonneg a) (u_nonneg b)
  have := u_lt a
  rw [u_trunc16]
  omega

theorem u_trunc16_emod (a : Word) {b : Word} (hb : 0 < u b) : u (trunc16 (u a % u b)) = u a % u b := by
  have hlt := Int.emod_lt_of_pos (u a) hb
  have hnn := Int.emod_nonneg (u a) hb.ne'
  have := u_lt b
  rw [u_trunc16]
  omega

/-- Settles O30: the integers' law of quotient and remainder, on the values DIV and MOD write. -/
theorem quotientAndRemainderRecomposeTheDividend : Obligations.QuotientAndRemainderRecomposeTheDividend := by
  intro d a b s hb
  have hpos := u_pos hb
  obtain ⟨⟨t, ht, hdiv⟩, ⟨t', ht', hmod⟩⟩ := divideAndModuloByANonzeroDivisor d a b s hb
  refine ⟨t, ht, t', ht', ?_⟩
  beta_reduce
  rw [hdiv.reg.value, hmod.reg.value, u_trunc16_ediv, u_trunc16_emod _ hpos, Int.mul_comm]
  exact ⟨(Int.mul_ediv_add_emod _ _).symm, Int.emod_nonneg _ hpos.ne', Int.emod_lt_of_pos _ hpos⟩

/-! ## Comparisons -/

/-- Settles O31: the differences are the model's own; CMPI's immediate keeps its signed value when widened. -/
theorem comparesClassifyTheExactDifference : Obligations.ComparesClassifyTheExactDifference := by
  intro a b imm s
  have himm : imm.toInt = (sext imm).toInt := (BitVec.toInt_signExtend_of_le (by decide)).symm
  rw [himm]
  exact ⟨compareResult_effect s _, compareResult_effect s _, compareResult_effect s _⟩

/-- The two readings of a register give CMPIU different codes exactly when its bit 15 is set: then the unsigned
difference is positive and the signed one negative. -/
theorem nzpOf_sub_ne_iff (v : Word) {m : Int} (hm : 0 ≤ m) (hm128 : m < 128) :
    nzpOf (u v - m) ≠ nzpOf (sgn v - m) ↔ 0x8000 ≤ u v := by
  have hlt := u_lt v
  rw [sgn_eq]
  split
  · next h => exact iff_of_false (by simp) (by omega)
  · next h =>
    rw [nzpOf_of_pos (by omega), nzpOf_of_neg (by omega)]
    exact iff_of_true (by decide) (by omega)

/-- Settles O32: `compareResult` of the final difference, and `nzpOf_sub_ne_iff`. -/
theorem compareUnsignedImmediateUsesItsFinalComputation :
    Obligations.CompareUnsignedImmediateUsesItsFinalComputation := by
  intro a uimm s
  have himm : (uimm.toNat : Int) = ((zext uimm).toNat : Int) := (u_zext (by decide) uimm).symm
  refine ⟨?_, fun c hc => ?_, nzpOf_sub_ne_iff _ (Int.natCast_nonneg _) (by have := uimm.isLt; omega)⟩
  · rw [himm]
    exact compareResult_effect s _
  · rw [execCmpiuWith, hc, himm]
    exact compareResult_effect s _

/-! ## Logic, shifts and constants -/

/-- Settles O33: all five are `writeResult` of the bitwise value. -/
theorem logicalResultsAreBitwise : Obligations.LogicalResultsAreBitwise := fun d _ _ _ s =>
  ⟨writeResult_effect s d _, writeResult_effect s d _, writeResult_effect s d _, writeResult_effect s d _,
    writeResult_effect s d _⟩

section
variable (v : Word) (k : BitVec 4)

theorem shiftLeft_eq : shiftLeft v k = trunc16 (u v * 2 ^ k.toNat) := by
  apply eq_of_u_eq
  rw [u_trunc16, u, u, shiftLeft, BitVec.toNat_shiftLeft, Nat.shiftLeft_eq]
  push_cast
  rfl

theorem shiftRightLogical_eq : shiftRightLogical v k = trunc16 (u v / 2 ^ k.toNat) := by
  have hnat : u (shiftRightLogical v k) = u v / 2 ^ k.toNat := by
    rw [u, u, shiftRightLogical, BitVec.toNat_ushiftRight, Nat.shiftRight_eq_div_pow]
    push_cast
    rfl
  rw [← hnat, trunc16_u]

theorem shiftRightArith_eq : shiftRightArith v k = trunc16 (sgn v / 2 ^ k.toNat) := by
  have hint : sgn (shiftRightArith v k) = sgn v / 2 ^ k.toNat := by
    rw [sgn, sgn, shiftRightArith, BitVec.toInt_sshiftRight, Int.shiftRight_eq_div_pow]
    push_cast
    rfl
  rw [← hint, trunc16_sgn]

end

/-- Settles O34: each shift's value in the spec's integers. -/
theorem shiftsMultiplyAndDivideByPowersOfTwo : Obligations.ShiftsMultiplyAndDivideByPowersOfTwo := by
  intro d a k s
  rw [← shiftLeft_eq, ← shiftRightLogical_eq, ← shiftRightArith_eq]
  exact ⟨writeResult_effect s d _, writeResult_effect s d _, writeResult_effect s d _⟩

/-- The amount stands in the low four bits of a shift's word (R82). -/
theorem field_encodeShift (kk : BitVec 2) (d a : RegIdx) (k : BitVec 4) : field (encodeShift kk d a k) 0 4 = k := by
  rw [field, encodeShift]
  exact BitVec.extractLsb'_append_eq_right

/-- A word that decodes to a shift is that shift's word: it has no ignored bits. -/
theorem field_of_decode_shift {w : Word} {d a : RegIdx} {k : BitVec 4}
    (h : decode w = .sll d a k ∨ decode w = .sra d a k ∨ decode w = .srl d a k) : field w 0 4 = k := by
  have hw := encode_decode w
  rcases h with h | h | h
  all_goals
    rw [h, Instr.usedBits, and_allUsed] at hw
    rw [← hw]
    exact field_encodeShift _ d a k

/-- Settles O35: `field_of_decode_shift`; a shift by 0 is the identity. -/
theorem shiftsNeverReachTheWidth : Obligations.ShiftsNeverReachTheWidth := by
  refine ⟨fun w d a k h => ?_, fun d a s => ?_⟩
  · have hk : k.toNat = w.toNat % 16 := by
      rw [← field_of_decode_shift h, field_zero, BitVec.toNat_setWidth]
    omega
  · have hl : shiftLeft (s.reg a) 0 = s.reg a := BitVec.shiftLeft_zero _
    have hr : shiftRightLogical (s.reg a) 0 = s.reg a := BitVec.ushiftRight_zero _
    have ha : shiftRightArith (s.reg a) 0 = s.reg a := BitVec.sshiftRight_zero
    refine ⟨?_, ?_, ?_⟩
    · exact hl ▸ writeResult_effect s d (shiftLeft (s.reg a) 0)
    · exact ha ▸ writeResult_effect s d (shiftRightArith (s.reg a) 0)
    · exact hr ▸ writeResult_effect s d (shiftRightLogical (s.reg a) 0)

/-- HICONST's value (R244): the kept byte and the new one have no bit in common. -/
theorem withHighByte_eq (old : Word) (uimm : BitVec 8) :
    withHighByte old uimm = trunc16 (u old % 256 + 256 * (uimm.toNat : Int)) := by
  have hlow : u (old &&& 0x00FF#16) = u old % 256 := by
    have hand : (old &&& 0x00FF#16).toNat = old.toNat % 2 ^ 8 := Nat.and_two_pow_sub_one_eq_mod old.toNat 8
    rw [u, hand, u]
    rfl
  have hhigh : u (zext uimm <<< 8) = 256 * (uimm.toNat : Int) := by
    have := uimm.isLt
    simp only [u, zext, BitVec.toNat_shiftLeft, Nat.shiftLeft_eq, BitVec.toNat_setWidth]
    omega
  rw [withHighByte, or_eq_trunc16, hlow, hhigh]
  intro k hk
  simp only [zext, BitVec.getLsbD_and, BitVec.getLsbD_shiftLeft, BitVec.getLsbD_setWidth]
  interval_cases k <;> simp

/-- Settles O36: both are `writeResult`, HICONST of `withHighByte`. -/
theorem constantsReplaceTheRegisterOrItsHighByte : Obligations.ConstantsReplaceTheRegisterOrItsHighByte := by
  intro d imm uimm s
  rw [← withHighByte_eq]
  exact ⟨writeResult_effect s d _, writeResult_effect s d _⟩

end Sys2Proof.Machine

/-! The statements about loads, stores, the stall and the refused opcodes. -/

namespace Sys2Proof.Machine

/-! ## Loads and stores (R240 to R242) -/

/-- Settles O40: the bit-vector sum is the integers' modulo 2^16. -/
theorem effectiveAddressWraps : Obligations.EffectiveAddressWraps := by
  intro base off
  rw [effectiveAddress, ← trunc16_add_sgn, u_trunc16]

/-- A store that the data check allows (R242). -/
theorem storeTo_effect (s : State) (ea v : Word) : Completes (storeTo ea v s) (StoreEffect ea v s) := by
  refine ⟨_, rfl, ?_⟩
  constructor
  · constructor <;> simp [Snapshot.cleared]
  · constructor <;> simp [Snapshot.cleared]
  · constructor <;> simp
  · rw [advancePc_mem, storeWord_mem, Memory.readWord_writeWord, if_pos rfl]
  · exact fun k hlow hhigh => Memory.readByte_writeWord_of_ne _ _ _ hlow hhigh
  · simp
  · simp [nextPc_eq]
  · simp [BooksKept]

section
variable {s : State} {a : RegIdx} {off : Word} (h : dataAllowed (effectiveAddress (s.reg a) off) s.psr = true)
include h

theorem ldr_effect (d : RegIdx) : Completes (exec (.ldr d a off) s)
    (LoadEffect d (effectiveAddress (s.reg a) off) (s.mem.readWord (effectiveAddress (s.reg a) off)) s) := by
  obtain ⟨t, ht, heffect⟩ := loadFrom_effect s d (effectiveAddress (s.reg a) off)
  exact ⟨t, (guardData_allowed s h).trans ht, heffect⟩

theorem str_effect (b : RegIdx) : Completes (exec (.str b a off) s)
    (StoreEffect (effectiveAddress (s.reg a) off) (s.reg b) s) := by
  obtain ⟨t, ht, heffect⟩ := storeTo_effect s (effectiveAddress (s.reg a) off) (s.reg b)
  exact ⟨t, (guardData_allowed s h).trans ht, heffect⟩

end

/-- Settles O41: `ldr_effect`, the data check in the spec's integers. -/
theorem allowedLoadsComplete : Obligations.AllowedLoadsComplete :=
  fun d _ _ _ h => ldr_effect ((dataAllowed_iff _ _).2 h) d

/-- Settles O42: `str_effect`, the data check in the spec's integers. -/
theorem allowedStoresComplete : Obligations.AllowedStoresComplete :=
  fun b _ _ _ h => str_effect ((dataAllowed_iff _ _).2 h) b

/-- Settles O43: the data check refuses both before they do anything. -/
theorem userAccessAbove7FFFFaults : Obligations.UserAccessAbove7FFFFaults := by
  intro r a off s huser hea
  have hforbidden := dataAllowed_eq_false.2 ⟨huser, hea⟩
  exact ⟨guardData_forbidden s hforbidden, guardData_forbidden s hforbidden⟩

/-- The data check sees no bit of the psr but the privilege bit (R58). -/
theorem dataAllowed_congr {psr psr' : Word} (h : privBit psr' = privBit psr) (ea : Word) :
    dataAllowed ea psr' = dataAllowed ea psr := by
  simp only [dataAllowed, cond1Holds, userMode_eq, h]

/-- A word is composed of its two bytes by CONST and HICONST (R243, R244). -/
theorem withHighByte_bytes (v : Word) : withHighByte (zext (v.extractLsb' 0 8)) (v.extractLsb' 8 8) = v := by
  have hlow : (v.extractLsb' 0 8).toNat = v.toNat % 256 := by simp
  have hhigh : (v.extractLsb' 8 8).toNat = v.toNat / 256 % 256 := by
    simp [BitVec.extractLsb'_toNat, Nat.shiftRight_eq_div_pow]
  have := v.isLt
  apply eq_of_u_eq
  rw [withHighByte_eq, u_trunc16, u_zext (by decide), hlow, hhigh, u]
  omega

/-- Settles O37: the four effects in turn. The base register is not the one composed, so the address stays the same;
the privilege bit is kept, so the data check allows it throughout. -/
theorem composedConstantSurvivesStoreAndLoad : Obligations.ComposedConstantSurvivesStoreAndLoad := by
  intro v d b r off s hdb hallowed
  rw [← dataAllowed_iff] at hallowed
  obtain ⟨s1, h1, he1⟩ := writeResult_effect s d (zext (v.extractLsb' 0 8))
  obtain ⟨s2, h2, he2⟩ := writeResult_effect s1 d (withHighByte (s1.reg d) (v.extractLsb' 8 8))
  rw [he1.reg.value, withHighByte_bytes] at he2
  have hbase2 : s2.reg b = s.reg b := (he2.reg.others b hdb.symm).trans (he1.reg.others b hdb.symm)
  have hpriv2 : privBit s2.psr = privBit s.psr := he2.psr.priv.trans he1.psr.priv
  have hallowed2 : dataAllowed (effectiveAddress (s2.reg b) off) s2.psr = true := by
    rwa [hbase2, dataAllowed_congr hpriv2]
  obtain ⟨s3, h3, he3⟩ := str_effect hallowed2 d
  have hbase3 : s3.reg b = s2.reg b := he3.reg.regs b
  have hallowed3 : dataAllowed (effectiveAddress (s3.reg b) off) s3.psr = true := by
    rwa [hbase3, dataAllowed_congr he3.psr.priv]
  obtain ⟨s4, h4, he4⟩ := ldr_effect hallowed3 r
  refine ⟨s1, h1, s2, h2, s3, h3, s4, h4, ?_⟩
  beta_reduce
  rw [he4.reg.value, hbase3, he3.stored, he2.reg.value]

/-! ## The stall and the refused opcodes (R247, R265) -/

/-- Settles O38: the stall, and the fault of the other policy. -/
theorem stallRetiresWithoutMoving : Obligations.StallRetiresWithoutMoving := by
  intro d low s
  refine ⟨stall_effect s, fun c hc => ?_⟩
  rw [execHiconstStallWith, hc]
  rfl

/-- The word of an opcode and twelve low bits. -/
theorem append_eq_trunc16 (op : BitVec 4) (low : BitVec 12) :
    op ++ low = trunc16 (4096 * (op.toNat : Int) + low.toNat) := by
  have hop := op.isLt
  have hlow := low.isLt
  have hnat : (op ++ low).toNat = 2 ^ 12 * op.toNat + low.toNat := by
    rw [BitVec.toNat_append, ← Nat.shiftLeft_add_eq_or_of_lt hlow, Nat.shiftLeft_eq, Nat.mul_comm]
  apply eq_of_u_eq
  rw [u_trunc16, u, hnat]
  omega

/-- Settles O53: each is `execUnassignedWith` of its word, under the default and under the two other policies. -/
theorem unassignedOpcodesAreRefused : Obligations.UnassignedOpcodesAreRefused := by
  intro low s
  have hword (op : BitVec 4) := append_eq_trunc16 op low
  refine ⟨?_, ?_, ?_, fun c I => ⟨fun hc => ?_, fun hc => ?_⟩⟩
  · exact congrArg (Host.Outcome.refused ∘ Refusal.unassignedOpcode) (hword 0b0011)
  · exact congrArg (Host.Outcome.refused ∘ Refusal.unassignedOpcode) (hword 0b1011)
  · exact congrArg (Host.Outcome.refused ∘ Refusal.unassignedOpcode) (hword 0b1110)
  · rw [execUnassignedWith, hc]
    rfl
  · rw [execUnassignedWith, hc]
    exact stall_effect s

end Sys2Proof.Machine

/-! The statements about the host's interface: the trace line, the driver and the loader (R320 to R358). -/

namespace Sys2Proof.Machine

/-! ## The trace line (R321, R322) -/

theorem hexDigit_injective : ∀ v w : BitVec 4, hexDigit v.toNat = hexDigit w.toNat → v = w := by decide

theorem digit3_injective : ∀ v w : BitVec 3, digit3 v = digit3 w → v = w := by decide

theorem flagChar_injective : ∀ b b' : Bool, flagChar b = flagChar b' → b = b' := by decide

/-- A word is its four hexadecimal digits. -/
theorem digits_append (w : Word) : field w 12 4 ++ field w 8 4 ++ field w 4 4 ++ field w 0 4 = w := by
  simp (disch := decide) only [field, BitVec.extractLsb'_append_extractLsb'_eq_extractLsb', BitVec.extractLsb'_eq_self]

theorem hex4_injective {v w : Word} (h : hex4 v = hex4 w) : v = w := by
  simp only [hex4, List.cons.injEq, and_true] at h
  obtain ⟨h3, h2, h1, h0⟩ := h
  rw [← digits_append v, ← digits_append w, hexDigit_injective _ _ h3, hexDigit_injective _ _ h2,
    hexDigit_injective _ _ h1, hexDigit_injective _ _ h0]

theorem length_flagChar (b : Bool) : (flagChar b).length = 1 := by cases b <;> rfl

/-- The sixteen characters, as the list of one-character lists that `bin16` joins. -/
theorem map_length_bits (w : Word) :
    ((List.range 16).map fun k => flagChar (w.getLsbD (15 - k))).map List.length = List.replicate 16 1 := by
  simp only [List.map_map, Function.comp_def, length_flagChar]
  rfl

theorem bin16_injective {v w : Word} (h : bin16 v = bin16 w) : v = w := by
  have hbits := List.eq_iff_flatten_eq.2 ⟨h, (map_length_bits v).trans (map_length_bits w).symm⟩
  rw [List.map_inj_left] at hbits
  apply BitVec.eq_of_getLsbD_eq
  intro k hk
  have hbit := flagChar_injective _ _ (hbits (15 - k) (List.mem_range.2 (by omega)))
  rwa [show 15 - (15 - k) = k by omega] at hbit

theorem length_bin16 (w : Word) : (bin16 w).length = 16 := by
  rw [bin16, List.flatMap_def, List.length_flatten, map_length_bits]
  rfl

/-- The pieces of a line, whose lengths do not depend on the record. -/
theorem map_length_pieces (r : TraceRecord) : ((traceFields r).intersperse [' '] ++ [['\n']]).map List.length =
    [4, 1, 16, 1, 1, 1, 1, 1, 4, 1, 1, 1, 1, 1, 1, 1, 4, 1, 4, 1] := by
  simp [traceFields, length_flagChar, length_bin16, hex4, digit3]

/-- Lines of the same fixed-width pieces are equal only piece by piece. -/
theorem traceFields_of_line {r r' : TraceRecord} (h : traceLine r = traceLine r') : traceFields r = traceFields r' := by
  have hpieces := List.eq_iff_flatten_eq.2
    ⟨String.ofList_injective h, (map_length_pieces r).trans (map_length_pieces r').symm⟩
  simpa [traceFields] using hpieces

/-- Settles O54: equal lines have equal fields (`traceFields_of_line`), and each field's rendering is injective. -/
theorem traceLineTellsEveryField : Obligations.TraceLineTellsEveryField := by
  intro r r' h
  have hfields := traceFields_of_line h
  simp only [traceFields, List.cons.injEq, and_true] at hfields
  obtain ⟨hpc, hword, hregWE, hrd, hregValue, hnzpWE, hnzp, hdmemWE, haddr, hvalue⟩ := hfields
  exact ⟨hex4_injective hpc, bin16_injective hword, flagChar_injective _ _ hregWE, digit3_injective _ _ hrd,
    hex4_injective hregValue, flagChar_injective _ _ hnzpWE, digit3_injective _ _ hnzp, flagChar_injective _ _ hdmemWE,
    hex4_injective haddr, hex4_injective hvalue⟩

/-! ## The driver (R356) -/

/-- Settles O56: `driveBy_of_halt`. -/
theorem haltAddressIsNeverExecuted : Obligations.HaltAddressIsNeverExecuted :=
  fun _ n _ hpc => driveBy_of_halt step n hpc

/-- A retired step counts one draw and leaves one trace record. -/
theorem step_next_books {s t : State} (h : step s = .next t) :
    t.draws = s.draws + 1 ∧ t.traceRecord.toList.length = 1 := by
  obtain ⟨t', hchanges, rfl⟩ := step_next_changes h
  exact ⟨congrArg (· + 1) hchanges.rest.2, rfl⟩

/-- Settles O57: by the driver's turns, each retired step adding one record and one draw. -/
theorem oneTraceRecordPerRetiredStep : Obligations.OneTraceRecordPerRetiredStep := by
  intro h n s
  unfold drive
  induction n generalizing s with
  | zero => exact ⟨rfl, fun _ => rfl⟩
  | succ n ih =>
    by_cases hpc : s.pc = h
    · rw [driveBy_of_halt step (n + 1) hpc]
      exact ⟨rfl, nofun⟩
    · cases hs : step s with
      | fault f =>
        rw [driveBy_of_fault n hpc hs]
        exact ⟨rfl, nofun⟩
      | refused r =>
        rw [driveBy_of_refused n hpc hs]
        exact ⟨rfl, nofun⟩
      | next t =>
        obtain ⟨hdraws, hrecord⟩ := step_next_books hs
        obtain ⟨hcount, hlimit⟩ := ih t
        rw [driveBy_of_next n hpc hs]
        simp only [List.length_append, hrecord]
        exact ⟨by omega, fun hend => by rw [hlimit hend]; omega⟩

/-- A step at a stall word goes on with pc, psr, registers and memory as they were (R247). -/
theorem step_of_stall {s : State} {d : RegIdx} {low : BitVec 8} (hallowed : fetchForbidden s.pc s.psr = none)
    (hdecode : decode (fetchWord s) = .hiconstStall d low) :
    step s = .next (retire s.pc (fetchWord s) (clearSnap s)) := by
  rw [step_of_allowed hallowed, hdecode]
  rfl

/-- Settles O39: by the driver's turns, the state after a stall being at the same stall. -/
theorem stalledMachineNeverMoves : Obligations.StalledMachineNeverMoves := by
  intro h n d low s hpc hallowed hdecode
  unfold drive
  induction n generalizing s with
  | zero => exact ⟨by rw [driveBy_zero, if_neg hpc], rfl, rfl, rfl, rfl⟩
  | succ n ih =>
    rw [driveBy_of_next n hpc (step_of_stall hallowed hdecode)]
    exact ih (retire s.pc (fetchWord s) (clearSnap s)) hpc hallowed hdecode

/-! ## The loader (R352 to R354) -/

/-- The words of a list stored one after another from an address on. -/
def storeWords (a : Nat) : List Word → Memory → Memory
  | [], m => m
  | w :: ws, m => storeWords (a + 1) ws (m.writeWord (BitVec.ofNat 16 a) w)

/-- The words before a stored list and after it read as before. -/
theorem readWord_storeWords_of_not_mem {a : Nat} {ws : List Word} {m : Memory} {b : Word}
    (hfits : a + ws.length ≤ 65536) (hb : b.toNat < a ∨ a + ws.length ≤ b.toNat) :
    (storeWords a ws m).readWord b = m.readWord b := by
  induction ws generalizing a m with
  | nil => rfl
  | cons w ws ih =>
    rw [List.length_cons] at hfits hb
    have hne : b ≠ BitVec.ofNat 16 a := by
      rintro rfl
      rw [BitVec.toNat_ofNat] at hb
      omega
    rw [storeWords, ih (by omega) (by omega), Memory.readWord_writeWord, if_neg hne]

/-- The k-th word of a stored list stands at the k-th address. -/
theorem readWord_storeWords {a : Nat} {ws : List Word} {m : Memory} (hfits : a + ws.length ≤ 65536) {k : Nat}
    (hk : k < ws.length) : (storeWords a ws m).readWord (BitVec.ofNat 16 (a + k)) = ws[k] := by
  induction ws generalizing a m k with
  | nil => cases hk
  | cons w ws ih =>
    rw [List.length_cons] at hfits hk
    cases k with
    | zero =>
      have hbefore : (BitVec.ofNat 16 a).toNat < a + 1 := by
        rw [BitVec.toNat_ofNat]
        omega
      show (storeWords (a + 1) ws (m.writeWord (BitVec.ofNat 16 a) w)).readWord (BitVec.ofNat 16 a) = w
      rw [readWord_storeWords_of_not_mem (by omega) (.inl hbefore), Memory.readWord_writeWord, if_pos rfl]
    | succ k =>
      have haddr : a + (k + 1) = a + 1 + k := by omega
      rw [storeWords, haddr, List.getElem_cons_succ]
      exact ih (by omega) (by omega)

section
variable {a more : Nat} {w : Word} {ws : List Word} {m : Memory}

theorem loadWords_data_last (ha : a < 65536) :
    loadWords (.data a 0) (w :: ws) m = loadWords .scan ws (m.writeWord (BitVec.ofNat 16 a) w) := if_pos ha

theorem loadWords_data_succ (ha : a < 65536) : loadWords (.data a (more + 1)) (w :: ws) m =
    loadWords (.data (a + 1) more) ws (m.writeWord (BitVec.ofNat 16 a) w) := if_pos ha

theorem loadWords_data_refused (ha : ¬ a < 65536) :
    loadWords (.data a more) (w :: ws) m = .error (.loadPastEnd a) := if_neg ha

/-- Inside a segment that fits, the words that follow are stored. -/
theorem loadWords_data (hlen : ws.length = more + 1) (hfits : a + ws.length ≤ 65536) :
    loadWords (.data a more) ws m = .ok (storeWords a ws m) := by
  induction ws generalizing a more m with
  | nil => cases hlen
  | cons w ws ih =>
    rw [List.length_cons] at hlen hfits
    cases more with
    | zero =>
      obtain rfl : ws = [] := List.length_eq_zero_iff.1 (by omega)
      exact loadWords_data_last (by omega)
    | succ more =>
      rw [loadWords_data_succ (by omega)]
      exact ih (by omega) (by omega)

/-- Inside a segment that runs past 0xFFFF, the word due at 0x10000 refuses the load. -/
theorem loadWords_past_end (hlen : ws.length = more + 1) (ha : a ≤ 65536) (hpast : 65536 < a + ws.length) :
    loadWords (.data a more) ws m = .error (.loadPastEnd 65536) := by
  induction ws generalizing a more m with
  | nil => cases hlen
  | cons w ws ih =>
    rw [List.length_cons] at hlen hpast
    by_cases hend : a = 65536
    · subst hend
      exact loadWords_data_refused (by omega)
    · obtain ⟨n, rfl⟩ : ∃ n, more = n + 1 := ⟨more - 1, by omega⟩
      rw [loadWords_data_succ (by omega)]
      exact ih (by omega) (by omega) (by omega)

end

/-- A header, an address and a nonzero count start a segment. -/
theorem loadWords_header {h a : Word} {ws : List Word} {more : Nat} (m : Memory) (hh : isHeader h = true)
    (hlen : ws.length = more + 1) (hlt : ws.length < 65536) :
    loadWords .scan (h :: a :: BitVec.ofNat 16 ws.length :: ws) m = loadWords (.data a.toNat more) ws m := by
  have hcount : (BitVec.ofNat 16 ws.length).toNat = more + 1 := by
    rw [BitVec.toNat_ofNat]
    omega
  have hne : BitVec.ofNat 16 ws.length ≠ 0 := fun h0 => by
    rw [h0] at hcount
    cases hcount
  simp only [loadWords, hh, if_true, if_neg hne, hcount, Nat.add_sub_cancel]

/-- Settles O58: past its header a segment is `loadWords_data` or `loadWords_past_end`; one of no words ends at once. -/
theorem segmentLoadsItsWords : Obligations.SegmentLoadsItsWords := by
  intro h a ws m hh hlt
  have ha := a.isLt
  constructor
  · intro hfits
    refine ⟨storeWords a.toNat ws m, ?_, fun k hk => readWord_storeWords hfits hk,
      fun b hb => readWord_storeWords_of_not_mem hfits hb⟩
    by_cases hnil : ws = []
    · subst hnil
      simp [loadWords, hh, storeWords]
    · have hpos := List.length_pos_iff.2 hnil
      obtain ⟨more, hlen⟩ : ∃ more, ws.length = more + 1 := ⟨ws.length - 1, by omega⟩
      rw [loadWords_header m hh hlen hlt, loadWords_data hlen hfits]
  · intro hpast
    obtain ⟨more, hlen⟩ : ∃ more, ws.length = more + 1 := ⟨ws.length - 1, by omega⟩
    rw [loadWords_header m hh hlen hlt, loadWords_past_end hlen (by omega) hpast]

/-- Loading keeps the canonical form: it changes memory by word writes only. -/
theorem wf_of_loadWords {p : LoadPhase} {ws : List Word} {m m' : Memory} (h : loadWords p ws m = .ok m')
    (hwf : m.wf = true) : m'.wf = true := by
  induction ws generalizing p m with
  | nil => cases h; exact hwf
  | cons w ws ih =>
    unfold loadWords at h
    split at h
    · exact ih h hwf
    · exact ih h hwf
    · exact ih h hwf
    · split at h
      · exact ih h (Memory.wf_writeWord _ _ _ hwf)
      · cases h

theorem loadFile_next {f : List Byte} {s t : State} (h : loadFile f s = .next t) :
    t = { s with mem := t.mem } ∧ (s.mem.wf = true → t.mem.wf = true) := by
  unfold loadFile at h
  split at h
  · next m hload =>
    cases h
    exact ⟨rfl, wf_of_loadWords hload⟩
  · cases h

/-- Settles O59: file by file (`loadFile_next`). -/
theorem loadingChangesOnlyMemory : Obligations.LoadingChangesOnlyMemory := by
  intro files s t h
  induction files generalizing s with
  | nil => cases h; exact ⟨rfl, id⟩
  | cons f fs ih =>
    rw [loadFiles] at h
    split at h
    · next s1 hfile =>
      obtain ⟨hs1, hwf1⟩ := loadFile_next hfile
      obtain ⟨ht, hwf⟩ := ih s1 h
      exact ⟨by rw [ht, hs1], hwf ∘ hwf1⟩
    · cases h
    · cases h

/-! ## The parameters (R8) -/

/-- Settles O8: the values of `Config.standard`. -/
theorem parametersAreTheDefaults : Obligations.ParametersAreTheDefaults := ⟨rfl, rfl, rfl, rfl, rfl, rfl, rfl⟩

/-- An instruction that no parameter touches means the same under all. -/
theorem execWith_eq_or_mem (c : Config) (i : Instr) (s : State) : execWith c i s = exec i s ∨
    i.mnemonic ∈ ["DIV", "MOD", "CMPIU", "JSRR", "JSR", "TRAP", "HICONST_STALL", "UNASSIGNED_0011", "UNASSIGNED_1011",
      "UNASSIGNED_1110"] := by
  cases i with
  | div | mod | cmpiu | jsrr | jsr | trap | hiconstStall | unassigned0011 | unassigned1011 | unassigned1110 =>
    exact .inr (by simp [Instr.mnemonic])
  | _ => exact .inl rfl

/-- A forbidden fetch stops every machine alike (R101). -/
theorem stepWith_of_forbidden (c : Config) {s : State} (h : fetchForbidden s.pc s.psr ≠ none) :
    stepWith c s = step s := by
  obtain ⟨f, hf⟩ := Option.ne_none_iff_exists'.1 h
  exact (stepBy_of_forbidden (execWith c) hf).trans (stepBy_of_forbidden exec hf).symm

theorem driveWith_config (n : Nat) (s : State) : driveWith config n s = drive 0x80FF n s := by
  have hstep : stepWith config = step := funext stepWith_config
  rw [driveWith, hstep]
  rfl

/-- Settles O60: the step, the instructions, the invariant and the driver under any parameters, then under the
defaults. -/
theorem everyParameterSettingGivesAMachine : Obligations.EveryParameterSettingGivesAMachine :=
  ⟨fun c => ⟨fun _ h => stepBy_of_allowed (execWith c) h, fun _ h => stepWith_of_forbidden c h, execWith_eq_or_mem c,
      fun _ _ _ _ _ _ _ _ _ => ⟨rfl, rfl, rfl, rfl, rfl, rfl, rfl, rfl, rfl, rfl⟩,
      fun _ _ hs h => stepWith_keeps_inv hs h, fun n _ hpc => driveBy_of_halt (stepWith c) n hpc⟩,
    execWith_config, stepWith_config, driveWith_config⟩

end Sys2Proof.Machine
